-- ==== Sys2Proof/Word.lean ====
section
/-! DEFINITION. The words of the machine (00_scope.md R12, R13, R15): raw values, command words, register
indices. The signed value s(v) of the rules is `BitVec.toInt`, the unsigned value u(v) is `BitVec.toNat`. -/

namespace Sys2Proof

/-- A 64-bit raw value, `XLEN` = 64 (R12). -/
abbrev Word := BitVec 64

/-- A 32-bit command word, `CMDW` = 32 (R13, R60). -/
abbrev CmdWord := BitVec 32

/-- A general register index: `NREG` = 16 and every 4-bit index is valid (R13, R21). -/
abbrev Reg := Fin 16

end Sys2Proof
end

