-- ==== Sys2Proof/Config.lean ====
section
/-! DEFINITION. What is fixed when the block is built (R32): the kinds of decided parameter of R13, the open
configuration record `T` of R14 and the latencies of R229. `T` and the latencies have no body: nothing in
Lean can evaluate them, so every claim holds for every record with the properties the spec lists. The decided
VALUES of the parameters of R13 are in `Machine/Params.lean`. -/

namespace Sys2Proof.Config

/-- `PRODUCT_WIDTH` (R13): the exact 128-bit product of MUL and MULT, or the 64-bit alternative of R86. -/
inductive ProductWidth where
  | exact128
  | wrapped64
deriving DecidableEq, Repr

/-- `DIV_ROUND` (R13): integer division toward zero, or the floor alternative. -/
inductive DivRound where
  | towardZero
  | floor
deriving DecidableEq, Repr

/-- The tables and numbers of R14, under its names. Each is a list of entries, its length the entry count. Only an
entry of `T.SINCOS_TBL` has a width in the spec (R41, N6); an entry of any other table is kept as the integer it
stands for, so that no width is assumed (DESIGN CHOICE, log entry 21). -/
structure Rom where
  /-- `T.SQRT_TBL`. -/
  sqrtTbl : List Int
  /-- `T.LOG2_TBL`. -/
  log2Tbl : List Int
  /-- `T.LOG2_WINDOW`. -/
  log2Window : Nat
  /-- `T.EXP_TBL`. -/
  expTbl : List Int
  /-- `T.EXP_LO` (R131). -/
  expLo : Word
  /-- `T.EXP_HI` (R131). -/
  expHi : Word
  /-- `T.EXP_COEF[0..4]` (R130). -/
  expCoef : Vector Int 5
  /-- `T.SINCOS_TBL`: cosine in bits 63:32, signed sine contribution in bits 31:0 (R133). -/
  sinCosTbl : List (BitVec 64)
  /-- `T.TAN_TBL`. -/
  tanTbl : List Int
  /-- `T.ASIN_TBL`. -/
  asinTbl : List Int
  /-- `T.ACOS_TBL`. -/
  acosTbl : List Int
  /-- `T.ATAN_TBL[0]`. -/
  atanTbl0 : List Int
  /-- `T.ATAN_TBL[1]`. -/
  atanTbl1 : List Int
  /-- `T.ATAN_TBL[2]`. -/
  atanTbl2 : List Int
  /-- `T.ATAN_SHIFT[1]`. -/
  atanShift1 : Nat
  /-- `T.ATAN_SHIFT[2]`. -/
  atanShift2 : Nat
  /-- `T.ATAN_BAND[0]`. -/
  atanBand0 : Nat
  /-- `T.ATAN_BAND[1]`. -/
  atanBand1 : Nat
  /-- `T.PI_HALF`, the quarter-turn constant (R143). -/
  piHalf : Word

/-- `T.SQRT_N`. -/
def Rom.sqrtN (rom : Rom) : Nat := rom.sqrtTbl.length

/-- `T.LOG2_N`. -/
def Rom.log2N (rom : Rom) : Nat := rom.log2Tbl.length

/-- `T.SINCOS_N`. -/
def Rom.sinCosN (rom : Rom) : Nat := rom.sinCosTbl.length

/-- The two folds of a negative remainder that R132 leaves open: by symmetry, or by adding a 2π whose rounding to
the 2^-16 grid is not stated. -/
inductive AngleFold where
  | bySymmetry
  | byAdding (twoPi : Int)
deriving DecidableEq, Repr

/-- The angle that is quantised, from the remainder by 2π (R132). -/
def AngleFold.fold (how : AngleFold) (t : Int) : Int :=
  if t < 0 then match how with
    | .bySymmetry => -t
    | .byAdding twoPi => t + twoPi
  else t

/-- The tables of R14 with the maps that the sketches of R122 to R141 name and no source gives: whatever the spec
does not state is a field. -/
structure EngineRom extends Rom where
  /-- The limit of the native domain of `T.SQRT_TBL` (R122). -/
  sqrtNative : Nat
  /-- The index of a native argument (R122). -/
  sqrtIndex : Nat → Nat
  /-- `expMant`: the even exponent and the mantissa of a larger argument (R125). -/
  expMant : Nat → Nat × Nat
  /-- The mantissa from floor(n / 2^e): that number itself, or a fixed-width normalisation of it (R125). -/
  mantissaNorm : Nat → Nat
  /-- What brings a shifted table entry to the scale of the result (R122, N20). -/
  sqrtScale : Int → Word
  /-- How many low bits of the window interpolate; those above them are the index (R126). -/
  log2FractionBits : Nat
  /-- The entries that the interpolation at an index reads besides that entry itself (R126). -/
  log2Neighbours : Nat → List Nat
  /-- The linear term and the quadratic correction, from those entries and the low part of the window (R126). -/
  log2Terms : List Int → Nat → Int
  /-- The integer part of EXP's argument, its floor or truncated toward zero (R130). -/
  expSplit : Int → Int
  /-- The fourth-order polynomial in the given coefficients, with the order and rounding of its products (R130). -/
  expPoly : Vector Int 5 → Int → Int
  /-- `i_min`, the integer part that stands first in `T.EXP_TBL` (R130). -/
  expMin : Int
  /-- Whether the combining multiply rounds, or truncates (R130). -/
  expRounds : Bool
  /-- How a negative remainder is folded (R132). -/
  angleFold : AngleFold
  /-- The quantisation of the folded angle (R132). -/
  sinCosIndex : Int → Nat
  /-- The sine from the cosine half and the sine half of an entry: whether one half or both are used, their scale
  and what the contribution is added to are open (R46, R133, N23). -/
  sinOf : BitVec 32 → BitVec 32 → Word
  /-- The cosine from the cosine half and the sine half of an entry. -/
  cosOf : BitVec 32 → BitVec 32 → Word
  /-- The reduction of a magnitude by the period π into the domain of `T.TAN_TBL`: its constant, and the scale it
  is done at, are open (R136, N24). -/
  tanReduce : Nat → Int
  /-- The end of that domain, the raw value of π/2 (R136). -/
  tanLimit : Nat
  /-- The index of a reduced angle. -/
  tanIndex : Int → Nat
  /-- The index of an argument of ASIN (N25). -/
  asinIndex : Int → Nat
  /-- The index of an argument of ACOS (N25). -/
  acosIndex : Int → Nat
  /-- The index of a small argument of ATAN (R141). -/
  atanIndex0 : Nat → Nat
  /-- The offset to the start of the middle band, taken away before the shift; an offset of the index is the
  multiple of 2^`T.ATAN_SHIFT[1]` here (R141). -/
  atanStart : Nat

/-- R126: the bits of n below its most significant 1, left-aligned in the window. -/
def EngineRom.log2Fraction (rom : EngineRom) (n : Nat) : Nat :=
  (n - 2 ^ n.log2) * 2 ^ rom.log2Window / 2 ^ n.log2

/-- R126: the high part of the window. -/
def EngineRom.log2Index (rom : EngineRom) (n : Nat) : Nat := rom.log2Fraction n / 2 ^ rom.log2FractionBits

/-- R141: the index of a magnitude of the middle band. -/
def EngineRom.atanIndex1 (rom : EngineRom) (a : Nat) : Nat := (a - rom.atanStart) / 2 ^ rom.atanShift1

/-- The contract of the square root's decomposition (R125): an even exponent from 0 to 62, the mantissa it leaves or a
fixed-width normalisation of that, inside the index range of the table it feeds. -/
structure ExpMantContract (f : Nat → Nat × Nat) (norm : Nat → Nat) (entries : Nat) : Prop where
  even : ∀ n, n < 2 ^ 64 → (f n).1 % 2 = 0
  exponent : ∀ n, n < 2 ^ 64 → (f n).1 ≤ 62
  mantissa : ∀ n, n < 2 ^ 64 → (f n).2 = norm (n / 2 ^ (f n).1)
  indexable : ∀ n, n < 2 ^ 64 → (f n).2 < entries

/-- What R42 says of the indices: no command indexes a table out of bounds, for any operand it looks up. The logarithm's
decomposition takes floor(log2 n) as the exponent and the window as the mantissa (R125, R126); the remainders by 2π
that the sine and the cosine fold lie from -411775 to 411774 (R165). -/
structure EngineRom.InBounds (rom : EngineRom) : Prop where
  sqrtNative : ∀ n, n ≤ rom.sqrtNative → rom.sqrtIndex n < rom.sqrtN
  sqrtMantissa : ExpMantContract rom.expMant rom.mantissaNorm rom.sqrtN
  log2 : ∀ n, 0 < n → n < 2 ^ 63 → rom.log2Index n < rom.log2N
  log2Neighbours : ∀ n, 0 < n → n < 2 ^ 63 → ∀ k ∈ rom.log2Neighbours (rom.log2Index n), k < rom.log2N
  expFirst : ∀ a, rom.expLo.toInt ≤ a → a ≤ rom.expHi.toInt → rom.expMin ≤ rom.expSplit a
  exp : ∀ a, rom.expLo.toInt ≤ a → a ≤ rom.expHi.toInt → rom.expSplit a - rom.expMin < rom.expTbl.length
  sinCos : ∀ t, -411775 ≤ t → t ≤ 411774 → rom.sinCosIndex (rom.angleFold.fold t) < rom.sinCosN
  tanReduced : ∀ n, n ≤ 2 ^ 63 → (rom.tanReduce n).natAbs ≤ rom.tanLimit
  tan : ∀ t, t.natAbs ≤ rom.tanLimit → rom.tanIndex t < rom.tanTbl.length
  asin : ∀ a, -65536 ≤ a → a ≤ 65536 → rom.asinIndex a < rom.asinTbl.length
  acos : ∀ a, -65536 ≤ a → a ≤ 65536 → rom.acosIndex a < rom.acosTbl.length
  atan0 : ∀ a, a ≤ rom.atanBand0 → rom.atanIndex0 a < rom.atanTbl0.length
  atanStart : rom.atanStart ≤ rom.atanBand0 + 1
  atan1 : ∀ a, rom.atanBand0 < a → a ≤ rom.atanBand1 → rom.atanIndex1 a < rom.atanTbl1.length
  atan2 : rom.atanTbl2 ≠ []

/-- Monotonic, in either direction. -/
def monotonic (tbl : List Int) : Prop := tbl.Pairwise (· ≤ ·) ∨ tbl.Pairwise (· ≥ ·)

/-- What R42 says of the contents: the table of a monotonic function is monotonic. Where the spec gives the direction
of the index (R126, R130, R141) the table rises; where the index is open, it may rise or fall. -/
structure Rom.Monotonic (rom : Rom) : Prop where
  sqrt : monotonic rom.sqrtTbl
  log2 : rom.log2Tbl.Pairwise (· ≤ ·)
  exp : rom.expTbl.Pairwise (· ≤ ·)
  tan : monotonic rom.tanTbl
  asin : monotonic rom.asinTbl
  acos : monotonic rom.acosTbl
  atan0 : monotonic rom.atanTbl0
  atan1 : rom.atanTbl1.Pairwise (· ≤ ·)
  atan2 : rom.atanTbl2.Pairwise (· ≤ ·)

/-- What the spec requires of the tables and of the maps into them. -/
structure EngineRom.Contract (rom : EngineRom) : Prop where
  /-- R42: indices. -/
  inBounds : rom.InBounds
  /-- R42: contents. -/
  monotonic : rom.Monotonic
  /-- R141: the shift of the large band is the coarser. -/
  atanCoarser : rom.atanShift1 < rom.atanShift2

/-- The configuration record `T` (R14, R121): the tables and numbers, one total function of the operand bits for
each table-driven command, and the two bounds that the document names without a number (N14, U27). -/
structure Tables extends EngineRom where
  /-- `T.sqrtCore`, read by SQRT and SQRTR (R122). -/
  sqrtCore : Word → Word
  /-- `T.log2Core`, read by LOG2, LN and LOG10 (R126). -/
  log2Core : Word → Word
  /-- `T.expCore`, read by EXP between the cut-offs (R130). -/
  expCore : Word → Word
  /-- `T.sin` (R134). -/
  sin : Word → Word
  /-- `T.cos` (R135). -/
  cos : Word → Word
  /-- `T.tan` (R137). -/
  tan : Word → Word
  /-- `T.asinCore`, read inside [-1, 1] (R139). -/
  asinCore : Word → Word
  /-- `T.acosCore`, read inside [-1, 1] (R140). -/
  acosCore : Word → Word
  /-- `T.atan` (R142). -/
  atan : Word → Word
  /-- `T.atan2Core` of y and x (R143). -/
  atan2Core : Word → Word → Word
  /-- `T.RES_UNIT`, the table-resolution unit of `P-SQRT-SQ` (N14). -/
  resUnit : Nat
  /-- The "small fixed epsilon" of `P-SINCOS-UNIT` (R134), in ulps. -/
  sinCosEps : Nat

/-- The product of two raw values rounded half up to the 2^-16 grid, as an exact integer (R86). -/
def roundedProduct (a b : Int) : Int := (a * b + 32768) / 65536

/-- The square that MUL writes (R86). -/
def mulSquare (v : Word) : Word := BitVec.ofInt 64 (roundedProduct v.toInt v.toInt)

/-- The named properties a model may assume of `T` (R121 b), and what R42 and R141 let it assume of the tables.
`P-…-DET` is the functions' type. Nothing ties the functions to the tables (R121). -/
structure Tables.Valid (T : Tables) : Prop where
  /-- R42, R125, R141. -/
  engine : T.toEngineRom.Contract
  /-- `P-SQRT-MONO` (R122), on unsigned magnitudes. -/
  sqrtMono : ∀ n m : Word, n.toNat ≤ m.toNat → (T.sqrtCore n).toNat ≤ (T.sqrtCore m).toNat
  /-- `P-SQRT-SQ` (R122): for non-negative x, sqrt(x) * sqrt(x) is within one table-resolution unit of x. -/
  sqrtSq : ∀ x : Word, 0 ≤ x.toInt →
    (roundedProduct (T.sqrtCore x).toInt (T.sqrtCore x).toInt - x.toInt).natAbs ≤ T.resUnit
  /-- `P-SINCOS-UNIT` (R134), squares taken with MUL and the sum with ADD, for the angles already reduced into
  [0, 2π), 2π as catalog entry 1 has it. -/
  sinCosUnit : ∀ a : Word, 0 ≤ a.toInt → a.toInt * 65536 < 26986075409 →
    ((mulSquare (T.sin a) + mulSquare (T.cos a)).toInt - 65536).natAbs ≤ T.sinCosEps
  /-- `P-ATAN2-QUARTER` (R143). -/
  atan2Quarter : T.atan2Core 0x10000 0 = T.piHalf
  /-- `P-ATAN2-NEGQUARTER` (R143). -/
  atan2NegQuarter : T.atan2Core 0xFFFFFFFFFFFF0000 0 = -T.piHalf

/-- A record `T` with the properties the spec lists. -/
structure ValidTables where
  tables : Tables
  valid : tables.Valid

/-- Tables small enough to write out, with maps that stay in bounds. -/
def exampleRom : EngineRom where
  sqrtTbl := [0, 1, 1, 1]
  log2Tbl := [0]
  log2Window := 0
  expTbl := [65536]
  expLo := 0
  expHi := 0
  expCoef := #v[65536, 65536, 32768, 10923, 2731]
  sinCosTbl := [0]
  tanTbl := [0]
  asinTbl := [0]
  acosTbl := [0]
  atanTbl0 := [0]
  atanTbl1 := [0]
  atanTbl2 := [0]
  atanShift1 := 1
  atanShift2 := 2
  atanBand0 := 0
  atanBand1 := 2
  piHalf := 0
  sqrtNative := 3
  sqrtIndex := id
  expMant := fun n => (62, n / 2 ^ 62)
  mantissaNorm := id
  sqrtScale := fun n => BitVec.ofInt 64 n
  log2FractionBits := 0
  log2Neighbours := fun k => [k]
  log2Terms := fun _ _ => 0
  expSplit := fun a => a / 65536
  expPoly := fun c _ => c.get 0
  expMin := 0
  expRounds := true
  angleFold := .bySymmetry
  sinCosIndex := fun _ => 0
  sinOf := fun _ sine => sine.signExtend 64
  cosOf := fun cosine _ => cosine.signExtend 64
  tanReduce := fun n => n % 205887
  tanLimit := 205887
  tanIndex := fun _ => 0
  asinIndex := fun _ => 0
  acosIndex := fun _ => 0
  atanIndex0 := fun _ => 0
  atanStart := 1

theorem exampleRom_log2Index (n : Nat) (h : 0 < n) : exampleRom.log2Index n = 0 := by
  have h1 : 2 ^ n.log2 ≤ n := Nat.log2_self_le h.ne'
  have h2 : n < 2 ^ (n.log2 + 1) := Nat.lt_log2_self
  rw [Nat.pow_succ] at h2
  have h3 : (n - 2 ^ n.log2) / 2 ^ n.log2 = 0 := Nat.div_eq_of_lt (by omega)
  simp [EngineRom.log2Index, EngineRom.log2Fraction, exampleRom, h3]

theorem exampleRom_inBounds : exampleRom.InBounds where
  sqrtNative := fun _ h => Nat.lt_succ_of_le h
  sqrtMantissa :=
    { even := fun _ _ => by simp [exampleRom]
      exponent := fun _ _ => le_refl _
      mantissa := fun _ _ => rfl
      indexable := fun n h => by
        simp only [exampleRom, Rom.sqrtN, List.length_cons, List.length_nil]
        omega }
  log2 := fun n h _ => by rw [exampleRom_log2Index n h]; exact Nat.one_pos
  log2Neighbours := fun n h _ k hk => by
    rw [exampleRom_log2Index n h] at hk
    rw [List.mem_singleton.mp hk]
    exact Nat.one_pos
  expFirst := fun _ h _ => Int.ediv_nonneg h (by decide)
  exp := fun a _ h => by
    have h : a ≤ 0 := h
    simp only [exampleRom, List.length_singleton]
    omega
  sinCos := fun _ _ _ => Nat.one_pos
  tanReduced := fun n _ => by
    simp only [exampleRom]
    omega
  tan := fun _ _ => Nat.one_pos
  asin := fun _ _ _ => Nat.one_pos
  acos := fun _ _ _ => Nat.one_pos
  atan0 := fun _ _ => Nat.one_pos
  atanStart := le_refl _
  atan1 := fun a _ h => by
    have h : a ≤ 2 := h
    simp only [EngineRom.atanIndex1, exampleRom, List.length_singleton]
    omega
  atan2 := List.cons_ne_nil _ _

theorem exampleRom_contract : exampleRom.Contract where
  inBounds := exampleRom_inBounds
  monotonic := by constructor <;> simp [exampleRom, monotonic]
  atanCoarser := by decide

/-- One record with the listed properties, which shows that they do not contradict each other. It says
nothing of the record the hardware has. -/
def exampleTables : ValidTables where
  tables :=
    { exampleRom with
      sqrtCore := fun _ => 0, log2Core := fun _ => 0, expCore := fun _ => 0, sin := fun _ => 0,
      cos := fun _ => 0, tan := fun _ => 0, asinCore := fun _ => 0, acosCore := fun _ => 0,
      atan := fun _ => 0, atan2Core := fun _ _ => 0, resUnit := 2 ^ 63, sinCosEps := 65536 }
  valid :=
    { engine := exampleRom_contract
      sqrtMono := by simp
      sqrtSq := by
        intro x hx
        have h := x.toInt_lt
        simp [roundedProduct]
        omega
      sinCosUnit := fun _ _ _ => by simp [mulSquare, roundedProduct]
      atan2Quarter := rfl
      atan2NegQuarter := rfl }

/-- The record the hardware was built with: uninterpreted, known only to be some valid record (log entry 6).
The bracketed argument only tells Lean that a valid record exists. -/
opaque builtTables [Inhabited ValidTables] : ValidTables

/-- The configuration record `T` of R14. -/
def T : Tables := (@builtTables ⟨exampleTables⟩).tables

/-- What may be assumed of `T`. -/
theorem T_valid : T.Valid := (@builtTables ⟨exampleTables⟩).valid

/-- `LATENCY[op]` - 1 for an opcode byte: R229 leaves the number of cycles open but at least 1 (log entry 5). -/
opaque latencyExtra : BitVec 8 → Nat

end Sys2Proof.Config
end

