-- ==== Sys2Proof/Syntax.lean ====
section
/-! DEFINITION. The 45 commands of 30_encoding.md R67, one constructor per row of the opcode table, with the
operands R64 gives each format. -/

namespace Sys2Proof

/-- What the host presents for one command: the word, and the 64-bit datum that LDR alone uses (R60, R66). -/
structure Command where
  word : CmdWord
  data : Word
deriving DecidableEq, Repr

/-- A command of the FXU with its operands. LDR's datum is `cmd_data` (R77); LDHC keeps the whole 12-bit
immediate, of which R66 uses bits 2:0 and requires bits 11:3 to be zero. -/
inductive Instr where
  -- 45_system.md
  | nop
  | ldr (rd : Reg) (datum : Word)
  | rdr (rs1 : Reg)
  | mov (rd rs1 : Reg)
  | rdsr
  | clsr
  -- 40_scalar_arith.md
  | add (rd rs1 rs2 : Reg)
  | sub (rd rs1 rs2 : Reg)
  | mul (rd rs1 rs2 : Reg)
  | mult (rd rs1 rs2 : Reg)
  | div (rd rs1 rs2 : Reg)
  | mod (rd rs1 rs2 : Reg)
  | neg (rd rs1 : Reg)
  | abs (rd rs1 : Reg)
  | min (rd rs1 rs2 : Reg)
  | max (rd rs1 rs2 : Reg)
  | adds (rd rs1 rs2 : Reg)
  | subs (rd rs1 rs2 : Reg)
  | muls (rd rs1 rs2 : Reg)
  -- 41_compare.md
  | ceq (rd rs1 rs2 : Reg)
  | cne (rd rs1 rs2 : Reg)
  | clt (rd rs1 rs2 : Reg)
  | cle (rd rs1 rs2 : Reg)
  | cgt (rd rs1 rs2 : Reg)
  | cge (rd rs1 rs2 : Reg)
  -- 42_transcendental.md
  | sqrt (rd rs1 : Reg)
  | sqrtr (rd rs1 : Reg)
  | log2 (rd rs1 : Reg)
  | ln (rd rs1 : Reg)
  | log10 (rd rs1 : Reg)
  | exp (rd rs1 : Reg)
  | sin (rd rs1 : Reg)
  | cos (rd rs1 : Reg)
  | tan (rd rs1 : Reg)
  | asin (rd rs1 : Reg)
  | acos (rd rs1 : Reg)
  | atan (rd rs1 : Reg)
  | atan2 (rd rs1 rs2 : Reg)
  -- 43_hp_divisor.md
  | ldhc (rd : Reg) (imm12 : BitVec 12)
  | divh (rd rs1 rs2 : Reg)
  | modh (rd rs1 rs2 : Reg)
  -- 44_convert.md
  | f2xs (rd rs1 : Reg)
  | f2xd (rd rs1 : Reg)
  | i2x (rd rs1 : Reg)
  | x2i (rd rs1 : Reg)
deriving DecidableEq, Repr

/-- The general register a command writes when it does not fault (R23). -/
def Instr.dest : Instr → Option Reg
  | .nop | .rdr _ | .rdsr | .clsr => none
  | .ldr rd _ | .ldhc rd _ => some rd
  | .mov rd _ | .neg rd _ | .abs rd _ | .sqrt rd _ | .sqrtr rd _ | .log2 rd _ | .ln rd _ | .log10 rd _
  | .exp rd _ | .sin rd _ | .cos rd _ | .tan rd _ | .asin rd _ | .acos rd _ | .atan rd _ | .f2xs rd _
  | .f2xd rd _ | .i2x rd _ | .x2i rd _ => some rd
  | .add rd _ _ | .sub rd _ _ | .mul rd _ _ | .mult rd _ _ | .div rd _ _ | .mod rd _ _ | .min rd _ _
  | .max rd _ _ | .adds rd _ _ | .subs rd _ _ | .muls rd _ _ | .ceq rd _ _ | .cne rd _ _ | .clt rd _ _
  | .cle rd _ _ | .cgt rd _ _ | .cge rd _ _ | .atan2 rd _ _ | .divh rd _ _ | .modh rd _ _ => some rd

/-- The general registers a command reads (R23). -/
def Instr.sources : Instr → List Reg
  | .nop | .ldr _ _ | .ldhc _ _ | .rdsr | .clsr => []
  | .rdr rs1 => [rs1]
  | .mov _ rs1 | .neg _ rs1 | .abs _ rs1 | .sqrt _ rs1 | .sqrtr _ rs1 | .log2 _ rs1 | .ln _ rs1
  | .log10 _ rs1 | .exp _ rs1 | .sin _ rs1 | .cos _ rs1 | .tan _ rs1 | .asin _ rs1 | .acos _ rs1
  | .atan _ rs1 | .f2xs _ rs1 | .f2xd _ rs1 | .i2x _ rs1 | .x2i _ rs1 => [rs1]
  | .add _ rs1 rs2 | .sub _ rs1 rs2 | .mul _ rs1 rs2 | .mult _ rs1 rs2 | .div _ rs1 rs2 | .mod _ rs1 rs2
  | .min _ rs1 rs2 | .max _ rs1 rs2 | .adds _ rs1 rs2 | .subs _ rs1 rs2 | .muls _ rs1 rs2
  | .ceq _ rs1 rs2 | .cne _ rs1 rs2 | .clt _ rs1 rs2 | .cle _ rs1 rs2 | .cgt _ rs1 rs2 | .cge _ rs1 rs2
  | .atan2 _ rs1 rs2 | .divh _ rs1 rs2 | .modh _ rs1 rs2 => [rs1, rs2]

end Sys2Proof
end

