-- ==== Sys2Proof/WellFormed.lean ====
section
/-! DEFINITION. Which terms of `Instr` some command word spells. Register operands need no check: every 4-bit
index is valid (R21, R66). -/

namespace Sys2Proof

/-- The one operand check: `imm12[11:3]` of LDHC must be zero (R64 format K, R66). -/
def Instr.wf : Instr → Bool
  | .ldhc _ imm12 => imm12.extractLsb' 3 9 == 0
  | .nop | .ldr _ _ | .rdr _ | .mov _ _ | .rdsr | .clsr
  | .add _ _ _ | .sub _ _ _ | .mul _ _ _ | .mult _ _ _ | .div _ _ _ | .mod _ _ _ | .neg _ _ | .abs _ _
  | .min _ _ _ | .max _ _ _ | .adds _ _ _ | .subs _ _ _ | .muls _ _ _
  | .ceq _ _ _ | .cne _ _ _ | .clt _ _ _ | .cle _ _ _ | .cgt _ _ _ | .cge _ _ _
  | .sqrt _ _ | .sqrtr _ _ | .log2 _ _ | .ln _ _ | .log10 _ _ | .exp _ _ | .sin _ _ | .cos _ _ | .tan _ _
  | .asin _ _ | .acos _ _ | .atan _ _ | .atan2 _ _ _
  | .divh _ _ _ | .modh _ _ _ | .f2xs _ _ | .f2xd _ _ | .i2x _ _ | .x2i _ _ => true

/-- The term has an encoding. -/
abbrev WellFormed (i : Instr) : Prop := i.wf = true

end Sys2Proof
end

