-- ==== Sys2Proof/Decode.lean ====
section
/-! DEFINITION. Command words to commands and back (30_encoding.md R60 to R79). A command word is a 32-bit
vector and not a byte string (R44, R60), so no byte order enters here. -/

namespace Sys2Proof

/-! ### Fields (R63) -/

/-- `opcode`, bits 31:24. -/
def opcodeField (w : CmdWord) : BitVec 8 := w.extractLsb' 24 8

/-- `rd`, bits 23:20. -/
def rdField (w : CmdWord) : Reg := (w.extractLsb' 20 4).toFin

/-- `rs1`, bits 19:16. -/
def rs1Field (w : CmdWord) : Reg := (w.extractLsb' 16 4).toFin

/-- `rs2`, bits 15:12. -/
def rs2Field (w : CmdWord) : Reg := (w.extractLsb' 12 4).toFin

/-- `imm12`, bits 11:0. -/
def immField (w : CmdWord) : BitVec 12 := w.extractLsb' 0 12

/-! ### Formats and the opcode map (R64, R67) -/

/-- The six formats of R64. -/
inductive Format where
  | Z | D | S | R2 | R3 | K
deriving DecidableEq, Repr

/-- The `mask` column of R64: the bits a decoder compares. -/
def Format.mask : Format → CmdWord
  | .Z => 0xFFFFFFFF
  | .D => 0xFF0FFFFF
  | .S => 0xFFF0FFFF
  | .R2 => 0xFF00FFFF
  | .R3 => 0xFF000FFF
  | .K => 0xFF0FFFF8

/-- The operand fields of a command word, and the datum presented with it (R63, R66). -/
structure Fields where
  rd : Reg
  rs1 : Reg
  rs2 : Reg
  imm12 : BitVec 12
  data : Word
deriving DecidableEq, Repr

/-- The fields of what is presented. -/
def fieldsOf (c : Command) : Fields where
  rd := rdField c.word
  rs1 := rs1Field c.word
  rs2 := rs2Field c.word
  imm12 := immField c.word
  data := c.data

/-- A row of the opcode map of R67: opcode, format, and the command its fields spell. -/
structure Row where
  opcode : BitVec 8
  format : Format
  make : Fields → Instr

/-- A row of format Z. -/
def rowZ (opcode : BitVec 8) (i : Instr) : Row := ⟨opcode, .Z, fun _ => i⟩

/-- A row of format D; the datum is `cmd_data` as it stands (R66). -/
def rowD (opcode : BitVec 8) (mk : Reg → Word → Instr) : Row := ⟨opcode, .D, fun f => mk f.rd f.data⟩

/-- A row of format S. -/
def rowS (opcode : BitVec 8) (mk : Reg → Instr) : Row := ⟨opcode, .S, fun f => mk f.rs1⟩

/-- A row of format R2. -/
def rowR2 (opcode : BitVec 8) (mk : Reg → Reg → Instr) : Row := ⟨opcode, .R2, fun f => mk f.rd f.rs1⟩

/-- A row of format R3. -/
def rowR3 (opcode : BitVec 8) (mk : Reg → Reg → Reg → Instr) : Row := ⟨opcode, .R3, fun f => mk f.rd f.rs1 f.rs2⟩

/-- A row of format K. -/
def rowK (opcode : BitVec 8) (mk : Reg → BitVec 12 → Instr) : Row := ⟨opcode, .K, fun f => mk f.rd f.imm12⟩

/-- The opcode map of R67. -/
def opcodeTable : List Row :=
  [ rowZ 0x00 .nop, rowD 0x01 .ldr, rowS 0x02 .rdr, rowR2 0x03 .mov, rowZ 0x04 .rdsr, rowZ 0x05 .clsr ] ++
  [ rowR3 0x10 .add, rowR3 0x11 .sub, rowR3 0x12 .mul, rowR3 0x13 .mult, rowR3 0x14 .div, rowR3 0x15 .mod,
    rowR2 0x16 .neg, rowR2 0x17 .abs, rowR3 0x18 .min, rowR3 0x19 .max, rowR3 0x1A .adds, rowR3 0x1B .subs,
    rowR3 0x1C .muls ] ++
  [ rowR3 0x20 .ceq, rowR3 0x21 .cne, rowR3 0x22 .clt, rowR3 0x23 .cle, rowR3 0x24 .cgt, rowR3 0x25 .cge ] ++
  [ rowR2 0x30 .sqrt, rowR2 0x31 .sqrtr, rowR2 0x32 .log2, rowR2 0x33 .ln, rowR2 0x34 .log10,
    rowR2 0x35 .exp, rowR2 0x36 .sin, rowR2 0x37 .cos, rowR2 0x38 .tan, rowR2 0x39 .asin, rowR2 0x3A .acos,
    rowR2 0x3B .atan, rowR3 0x3C .atan2 ] ++
  [ rowK 0x40 .ldhc, rowR3 0x41 .divh, rowR3 0x42 .modh ] ++
  [ rowR2 0x50 .f2xs, rowR2 0x51 .f2xd, rowR2 0x52 .i2x, rowR2 0x53 .x2i ]

/-- A word is this row's command exactly when `word & mask == match`, with `match` = `opcode << 24` (R64, R75). -/
def Row.matches (row : Row) (w : CmdWord) : Bool :=
  w &&& row.format.mask == row.opcode.setWidth 32 <<< 24

/-! ### Decoding -/

/-- The command a word and its datum spell; `none` when the word is illegal, that is when it matches no row
(R75). Which of the two it is depends on the word alone (R79), and the datum reaches LDR alone (R66). -/
def decode (c : Command) : Option Instr :=
  (opcodeTable.find? (·.matches c.word)).map (·.make (fieldsOf c))

/-- The command presented when the bits of the word are `w`, its datum standing above the word (bits 95:32). -/
def commandOfBits (w : Nat) : Command := ⟨BitVec.ofNat 32 w, BitVec.ofNat 64 (w / 2 ^ 32)⟩

/-- What the decoder reads from an instruction of `nbits` bits `w`, all higher bits zero. -/
def decodeTableWord (nbits w : Nat) : Option Instr := decode (commandOfBits (w % 2 ^ nbits))

/-! ### Encoding (R77) -/

/-- `(opcode << 24) | (rd << 20) | (rs1 << 16) | (rs2 << 12) | imm12` (R77); the fields do not overlap, so
the sum is the disjunction. -/
def packWord (opcode : BitVec 8) (rd rs1 rs2 : Reg) (imm12 : BitVec 12) : CmdWord :=
  BitVec.ofNat 32
    (opcode.toNat * 2 ^ 24 + rd.val * 2 ^ 20 + rs1.val * 2 ^ 16 + rs2.val * 2 ^ 12 + imm12.toNat)

/-- The word of a command. -/
def encodeWord : Instr → CmdWord
  | .nop => packWord 0x00 0 0 0 0
  | .ldr rd _ => packWord 0x01 rd 0 0 0
  | .rdr rs1 => packWord 0x02 0 rs1 0 0
  | .mov rd rs1 => packWord 0x03 rd rs1 0 0
  | .rdsr => packWord 0x04 0 0 0 0
  | .clsr => packWord 0x05 0 0 0 0
  | .add rd rs1 rs2 => packWord 0x10 rd rs1 rs2 0
  | .sub rd rs1 rs2 => packWord 0x11 rd rs1 rs2 0
  | .mul rd rs1 rs2 => packWord 0x12 rd rs1 rs2 0
  | .mult rd rs1 rs2 => packWord 0x13 rd rs1 rs2 0
  | .div rd rs1 rs2 => packWord 0x14 rd rs1 rs2 0
  | .mod rd rs1 rs2 => packWord 0x15 rd rs1 rs2 0
  | .neg rd rs1 => packWord 0x16 rd rs1 0 0
  | .abs rd rs1 => packWord 0x17 rd rs1 0 0
  | .min rd rs1 rs2 => packWord 0x18 rd rs1 rs2 0
  | .max rd rs1 rs2 => packWord 0x19 rd rs1 rs2 0
  | .adds rd rs1 rs2 => packWord 0x1A rd rs1 rs2 0
  | .subs rd rs1 rs2 => packWord 0x1B rd rs1 rs2 0
  | .muls rd rs1 rs2 => packWord 0x1C rd rs1 rs2 0
  | .ceq rd rs1 rs2 => packWord 0x20 rd rs1 rs2 0
  | .cne rd rs1 rs2 => packWord 0x21 rd rs1 rs2 0
  | .clt rd rs1 rs2 => packWord 0x22 rd rs1 rs2 0
  | .cle rd rs1 rs2 => packWord 0x23 rd rs1 rs2 0
  | .cgt rd rs1 rs2 => packWord 0x24 rd rs1 rs2 0
  | .cge rd rs1 rs2 => packWord 0x25 rd rs1 rs2 0
  | .sqrt rd rs1 => packWord 0x30 rd rs1 0 0
  | .sqrtr rd rs1 => packWord 0x31 rd rs1 0 0
  | .log2 rd rs1 => packWord 0x32 rd rs1 0 0
  | .ln rd rs1 => packWord 0x33 rd rs1 0 0
  | .log10 rd rs1 => packWord 0x34 rd rs1 0 0
  | .exp rd rs1 => packWord 0x35 rd rs1 0 0
  | .sin rd rs1 => packWord 0x36 rd rs1 0 0
  | .cos rd rs1 => packWord 0x37 rd rs1 0 0
  | .tan rd rs1 => packWord 0x38 rd rs1 0 0
  | .asin rd rs1 => packWord 0x39 rd rs1 0 0
  | .acos rd rs1 => packWord 0x3A rd rs1 0 0
  | .atan rd rs1 => packWord 0x3B rd rs1 0 0
  | .atan2 rd rs1 rs2 => packWord 0x3C rd rs1 rs2 0
  | .ldhc rd imm12 => packWord 0x40 rd 0 0 imm12
  | .divh rd rs1 rs2 => packWord 0x41 rd rs1 rs2 0
  | .modh rd rs1 rs2 => packWord 0x42 rd rs1 rs2 0
  | .f2xs rd rs1 => packWord 0x50 rd rs1 0 0
  | .f2xd rd rs1 => packWord 0x51 rd rs1 0 0
  | .i2x rd rs1 => packWord 0x52 rd rs1 0 0
  | .x2i rd rs1 => packWord 0x53 rd rs1 0 0

/-- The datum that goes with a command: LDR's, and zero for every other (which ignores it, R66). -/
def encodeData : Instr → Word
  | .ldr _ datum => datum
  | _ => 0

/-- What the host presents to have a command executed. -/
def encode (i : Instr) : Command := ⟨encodeWord i, encodeData i⟩

end Sys2Proof
end

