-- ==== Sys2Proof/Machine/State.lean ====
section
/-! DEFINITION. The state (10_state.md): sixteen general registers, the fault status register, the command in
flight and the response port; and, as the model's own fields, what the host presents next and the responses
of the run so far (log entries 1 and 2). -/

namespace Sys2Proof.Machine

/-- The three faults of R201. -/
inductive FaultCause where
  | dz
  | dom
  | ill
deriving DecidableEq, Repr

/-- The response codes of R65; codes 4 to 7 are never produced. -/
inductive RspCode where
  | ok
  | dz
  | dom
  | ill
deriving DecidableEq, Repr

/-- The one response to a command: `rsp_code` and `rsp_data` (R65). -/
structure Response where
  code : RspCode
  data : Word
deriving DecidableEq, Repr

/-- The sticky flags of `FSR` (R27). Bits 63:3 are hardwired zero and so are no state. -/
structure Fsr where
  dz : Bool
  dom : Bool
  ill : Bool
deriving DecidableEq, Repr

/-- A command accepted and not yet answered: the command, and how many clock edges still come before the
edge that answers it (R30, R62, R229). -/
structure InFlight where
  command : Command
  left : Nat
deriving DecidableEq, Repr

/-- What the host drives on the input ports at one rising edge of `clk` (R61). -/
structure Pins where
  rst : Bool
  cmdValid : Bool
  cmdWord : CmdWord
  cmdData : Word
deriving DecidableEq, Repr

/-- What the host does next (log entry 1): it presents a command until it is accepted and waits for the
response, which is one step of R62; or it drives the pins for one rising edge. -/
inductive HostEvent where
  | command (c : Command)
  | edge (p : Pins)
deriving DecidableEq, Repr

/-- The state of the FXU and of what is connected to it. -/
structure State where
  /-- `x[0..15]` (R21). -/
  x : Vector Word 16
  /-- `FSR` (R27). -/
  fsr : Fsr
  /-- The command in flight, if any (R30, R62). -/
  inFlight : Option InFlight
  /-- The response port: `none` is `rsp_valid` = 0 (R61, R31). -/
  rsp : Option Response
  /-- The responses given since the last reset, oldest first (R224; the model's own field, log entry 2). -/
  responses : List Response
  /-- What the host does next, first event first (the model's own field, log entry 1). -/
  host : List HostEvent
deriving DecidableEq, Repr

/-- The reasons for the machine to stop with a fault: there are none. A fault of the FXU (`DZ`, `DOM`, `ILL`) is
a response after which it goes on (R203), and it always answers (R228); see log entry 15. -/
inductive Fault
deriving DecidableEq, Repr

/-- The reasons for having no meaning. -/
inductive Refusal where
  /-- Raised by an arm of `exec` whose command has no meaning yet; safe. No arm raises it. -/
  | notModelled (mnemonic : String)
deriving DecidableEq, Repr

/-- The state after reset (R31): registers and `FSR` zero, no command in flight, no response; nothing
answered yet in the run, and the host has nothing to present (log entries 1 and 2). -/
def State.reset : State where
  x := Vector.replicate 16 0
  fsr := ⟨false, false, false⟩
  inFlight := none
  rsp := none
  responses := []
  host := []

end Sys2Proof.Machine
end

