-- ==== Sys2Proof/Machine/Flags.lean ====
section
/-! DEFINITION. Every computation over `FSR` and the response codes (R27, R28, R65, R201). There are no
condition codes (R26). -/

namespace Sys2Proof.Machine

/-- The response code of a fault (R201). -/
def FaultCause.code : FaultCause → RspCode
  | .dz => .dz
  | .dom => .dom
  | .ill => .ill

/-- `rsp_code` as driven on the port (R65). -/
def RspCode.bits : RspCode → BitVec 3
  | .ok => 0
  | .dz => 1
  | .dom => 2
  | .ill => 3

/-- A fault sets its own flag and leaves the other two (R28). -/
def Fsr.raise (f : Fsr) : FaultCause → Fsr
  | .dz => { f with dz := true }
  | .dom => { f with dom := true }
  | .ill => { f with ill := true }

/-- The flag of a fault. -/
def Fsr.flag (f : Fsr) : FaultCause → Bool
  | .dz => f.dz
  | .dom => f.dom
  | .ill => f.ill

/-- `FSR` with bits 2:0 zero (R195). -/
def Fsr.clear (_ : Fsr) : Fsr := ⟨false, false, false⟩

/-- `FSR` as RDSR reads it: `DZ` in bit 0, `DOM` in bit 1, `ILL` in bit 2, bits 63:3 zero (R27, R194). -/
def Fsr.toWord (f : Fsr) : Word :=
  (BitVec.ofBool f.ill ++ BitVec.ofBool f.dom ++ BitVec.ofBool f.dz).setWidth 64

end Sys2Proof.Machine
end

