-- ==== Sys2Proof/Machine/Ops.lean ====
section
/-! DEFINITION. The shared operations of the commands: reading and writing a general register, answering, and
faulting. There is no memory (R40) and no program counter (R25), so no operation over either. -/

namespace Sys2Proof.Machine

/-- How a command ends. Every command of the FXU ends in a next state (R228). -/
abbrev Result := Host.Outcome State Fault Refusal

/-- `x[r]` (R16, R21): no register is hardwired. -/
def State.readReg (s : State) (r : Reg) : Word := s.x[r]

/-- `x[r] <- v` (R16, R21). -/
def State.writeReg (s : State) (r : Reg) (v : Word) : State := { s with x := s.x.set r v }

/-- `respond(code, data)`: the command's one response (R62, R65). -/
def State.respond (s : State) (code : RspCode) (data : Word) : State :=
  { s with rsp := some ⟨code, data⟩, responses := s.responses ++ [⟨code, data⟩] }

/-- The end of a command that writes its one destination and answers (`OK`, 0) (R23, R65). -/
def State.complete (s : State) (rd : Reg) (v : Word) : State := (s.writeReg rd v).respond .ok 0

/-- `raise <Fault>()` (R203), the FXU's taking of an exception: no general register is written, the fault's
flag is set, the response is (code, 0). Control goes nowhere and nothing is saved (R208), and so there is no
return from it (R209). -/
def State.raise (s : State) (f : FaultCause) : State :=
  { s with fsr := s.fsr.raise f }.respond f.code 0

/-- `CLSR`'s effect on `FSR` (R195). -/
def State.clearFsr (s : State) : State := { s with fsr := s.fsr.clear }

/-- The response pulse lasts one cycle (R61, R62). -/
def State.clearPulse (s : State) : State := { s with rsp := none }

/-- The state of R31 reached by a reset (R220, R221); what the host will do next is not the FXU's to change. -/
def State.applyReset (s : State) : State := { State.reset with host := s.host }

/-- `cmd_ready` (R61, R62): no command in flight, and not the cycle of a response (log entry 4). It does not look at
`rst`: of "0 or is ignored" while `rst` = 1 (R220) the model takes "is ignored" (DESIGN CHOICE, log entry 28). -/
def State.cmdReady (s : State) : Bool := s.inFlight.isNone && s.rsp.isNone

end Sys2Proof.Machine
end

