-- ==== Sys2Proof/Machine/Numeric.lean ====
section
/-! DEFINITION. The primitives of 00_scope.md R12 and R16 on unbounded integers. -/

namespace Sys2Proof.Machine

/-- `MIN_RAW` (R12). -/
def minRaw : Word := 0x8000000000000000

/-- `MAX_RAW` (R12). -/
def maxRaw : Word := 0x7FFFFFFFFFFFFFFF

/-- `ONE`, the raw value of logical 1 (R12). -/
def one : Word := 0x0000000000010000

/-- `HALF`, the rounding bias of the multiply, 2^15 (R12). -/
def half : Int := 0x8000

/-- `wrap64(n)`: the 64-bit vector whose unsigned value is n mod 2^64. -/
def wrap64 (n : Int) : Word := BitVec.ofInt 64 n

/-- `sat64(n)`: n clamped to the signed 64-bit range. -/
def sat64 (n : Int) : Word := wrap64 (max (-2 ^ 63) (min (2 ^ 63 - 1) n))

/-- `asr(n, k)` = floor(n / 2^k), the arithmetic right shift (R16, R17). -/
def asr (n : Int) (k : Nat) : Int := n / 2 ^ k

/-- `n << k` = n * 2^k; no bit is lost (R16). -/
def shl (n : Int) (k : Nat) : Int := n * 2 ^ k

/-- The integer quotient in the given rounding: `tdiv(n, d)` of R16, or its floor alternative (R13, R83). -/
def quotient (r : Config.DivRound) (n d : Int) : Int :=
  match r with
  | .towardZero => n.tdiv d
  | .floor => n.fdiv d

/-- `trem(n, d)` = n - d * quotient (R16, R83). -/
def remainder (r : Config.DivRound) (n d : Int) : Int := n - d * quotient r n d

end Sys2Proof.Machine
end

