-- ==== Sys2Proof/Machine/Params.lean ====
section
/-! DEFINITION. The decided values of the parameters of 00_scope.md R13 (log entry 10) and the catalog
`ROM.HPC` of 43_hp_divisor.md R162 (log entry 11). -/

namespace Sys2Proof.Machine

/-- `PRODUCT_WIDTH` = 128. -/
def productWidth : Config.ProductWidth := .exact128

/-- `DIV_WIDE` = false: DIV shifts its dividend in 64 bits. -/
def divWide : Bool := false

/-- `DIV_ROUND` = toward zero. -/
def divRound : Config.DivRound := .towardZero

/-- `ROM.HPC[k]`: `PI`, `TWO_PI`, `E`, `LOG2_E`, `LOG2_10`, `DEG2RAD`, `RAD2DEG`, `HALF_PI`, each the integer
nearest to the constant times 2^32. -/
def catalog : Fin 8 → Word
  | 0 => 0x00000003243F6A89
  | 1 => 0x00000006487ED511
  | 2 => 0x00000002B7E15163
  | 3 => 0x0000000171547653
  | 4 => 0x000000035269E12F
  | 5 => 0x000000000477D1A9
  | 6 => 0x000000394BB834C8
  | 7 => 0x00000001921FB544

/-- The catalog index of 2π (R132). -/
def twoPiIndex : Fin 8 := 1

/-- The catalog index of log2(e), the divisor of LN (R128). -/
def log2eIndex : Fin 8 := 3

/-- The catalog index of log2(10), the divisor of LOG10 (R129). -/
def log2tenIndex : Fin 8 := 4

end Sys2Proof.Machine
end

