-- ==== Sys2Proof/Machine/Operands.lean ====
section
/-! DEFINITION. Every operand form (R22, R66): a register as a signed raw value or integer, the catalog
immediate of LDHC, and a register as the bits of an IEEE value. LDR's datum needs no form: it is taken as it
stands. -/

namespace Sys2Proof.Machine

/-- `s(x[r])`: a FixedPoint raw value, a HighPrecisionDivisor raw value or a 64-bit integer (R22). -/
def State.signedReg (s : State) (r : Reg) : Int := (s.readReg r).toInt

/-- LDHC's catalog index `u(imm12[2:0])`, zero-extended and not scaled (R66). -/
def catalogIndex (imm12 : BitVec 12) : Fin 8 := (imm12.extractLsb' 0 3).toFin

/-- The parts of an IEEE value: sign bit, biased exponent, fraction field (R175). -/
structure IeeeParts where
  sign : Bool
  exponent : Nat
  fraction : Nat
deriving DecidableEq, Repr

/-- The fields of a binary64 pattern: bit 63, bits 62:52, bits 51:0 (R176). -/
def binary64Parts (b : Word) : IeeeParts where
  sign := b.getLsbD 63
  exponent := (b.extractLsb' 52 11).toNat
  fraction := (b.extractLsb' 0 52).toNat

/-- The fields of a binary32 pattern in bits 31:0: bit 31, bits 30:23, bits 22:0; bits 63:32 are ignored (R177). -/
def binary32Parts (b : Word) : IeeeParts where
  sign := b.getLsbD 31
  exponent := (b.extractLsb' 23 8).toNat
  fraction := (b.extractLsb' 0 23).toNat

end Sys2Proof.Machine
end

