-- ==== Sys2Proof/Machine/Arith.lean ====
section
/-! DEFINITION. Scalar arithmetic: ADD SUB MUL MULT DIV MOD NEG ABS MIN MAX ADDS SUBS MULS (40_scalar_arith.md).
Overflow wraps and is no event (R81, R205), except where a saturating form clamps. -/

namespace Sys2Proof.Machine

/-- What MUL writes, for either product width (R86). -/
def mulValue (w : Config.ProductWidth) (a b : Int) : Word :=
  match w with
  | .exact128 => wrap64 (asr (a * b + half) 16)
  | .wrapped64 => wrap64 (asr (wrap64 (a * b + half)).toInt 16)

/-- What MULT writes, for either product width (R88). -/
def multValue (w : Config.ProductWidth) (a b : Int) : Word :=
  match w with
  | .exact128 => wrap64 (asr (a * b) 16)
  | .wrapped64 => wrap64 (asr (wrap64 (a * b)).toInt 16)

/-- DIV's shifted dividend N: kept exact when `DIV_WIDE`, else shifted in 64 bits (R90). -/
def shiftedDividend (wide : Bool) (a : Int) : Int :=
  if wide then shl a 16 else (wrap64 (shl a 16)).toInt

/-- What DIV writes for a non-zero divisor (R90). -/
def divValue (wide : Bool) (r : Config.DivRound) (a b : Int) : Word :=
  wrap64 (quotient r (shiftedDividend wide a) b)

/-- What MOD writes for a non-zero divisor: the remainder of the raw values, with no shift (R92). -/
def modValue (r : Config.DivRound) (a b : Int) : Word := wrap64 (remainder r a b)

/-- What ABS writes: the shift and exclusive-or of R94, at 64 bits. -/
def absValue (v : Word) : Word :=
  let m := v.sshiftRight 63
  (v ^^^ m) - m

/-- ADD (R84). -/
def execAdd (rd rs1 rs2 : Reg) (s : State) : Result :=
  .next (s.complete rd (wrap64 (s.signedReg rs1 + s.signedReg rs2)))

/-- SUB (R85). -/
def execSub (rd rs1 rs2 : Reg) (s : State) : Result :=
  .next (s.complete rd (wrap64 (s.signedReg rs1 - s.signedReg rs2)))

/-- MUL (R86). -/
def execMul (rd rs1 rs2 : Reg) (s : State) : Result :=
  .next (s.complete rd (mulValue productWidth (s.signedReg rs1) (s.signedReg rs2)))

/-- MULT (R88). -/
def execMult (rd rs1 rs2 : Reg) (s : State) : Result :=
  .next (s.complete rd (multValue productWidth (s.signedReg rs1) (s.signedReg rs2)))

/-- DIV (R90). -/
def execDiv (rd rs1 rs2 : Reg) (s : State) : Result :=
  .next (if s.signedReg rs2 = 0 then s.raise .dz
    else s.complete rd (divValue divWide divRound (s.signedReg rs1) (s.signedReg rs2)))

/-- MOD (R92). -/
def execMod (rd rs1 rs2 : Reg) (s : State) : Result :=
  .next (if s.signedReg rs2 = 0 then s.raise .dz
    else s.complete rd (modValue divRound (s.signedReg rs1) (s.signedReg rs2)))

/-- NEG (R93). -/
def execNeg (rd rs1 : Reg) (s : State) : Result := .next (s.complete rd (wrap64 (-s.signedReg rs1)))

/-- ABS (R94). -/
def execAbs (rd rs1 : Reg) (s : State) : Result := .next (s.complete rd (absValue (s.readReg rs1)))

/-- MIN (R95). -/
def execMin (rd rs1 rs2 : Reg) (s : State) : Result :=
  .next (s.complete rd (if s.signedReg rs1 < s.signedReg rs2 then s.readReg rs1 else s.readReg rs2))

/-- MAX (R96). -/
def execMax (rd rs1 rs2 : Reg) (s : State) : Result :=
  .next (s.complete rd (if s.signedReg rs1 > s.signedReg rs2 then s.readReg rs1 else s.readReg rs2))

/-- ADDS (R97). -/
def execAdds (rd rs1 rs2 : Reg) (s : State) : Result :=
  .next (s.complete rd (sat64 (s.signedReg rs1 + s.signedReg rs2)))

/-- SUBS (R98). -/
def execSubs (rd rs1 rs2 : Reg) (s : State) : Result :=
  .next (s.complete rd (sat64 (s.signedReg rs1 - s.signedReg rs2)))

/-- MULS (R99): the exact product whatever `PRODUCT_WIDTH` is. -/
def execMuls (rd rs1 rs2 : Reg) (s : State) : Result :=
  .next (s.complete rd (sat64 (asr (s.signedReg rs1 * s.signedReg rs2 + half) 16)))

end Sys2Proof.Machine
end

