-- ==== Sys2Proof/Machine/Compare.lean ====
section
/-! DEFINITION. Comparison: CEQ CNE CLT CLE CGT CGE (41_compare.md). -/

namespace Sys2Proof.Machine

/-- The outcome of a comparison as the 64-bit integer 1 or 0 (R110). -/
def outcomeWord (p : Bool) : Word := if p then 1 else 0

/-- CEQ (R111): all 64 bits equal. -/
def execCeq (rd rs1 rs2 : Reg) (s : State) : Result :=
  .next (s.complete rd (outcomeWord (s.readReg rs1 = s.readReg rs2)))

/-- CNE (R112). -/
def execCne (rd rs1 rs2 : Reg) (s : State) : Result :=
  .next (s.complete rd (outcomeWord (s.readReg rs1 ≠ s.readReg rs2)))

/-- CLT (R113). -/
def execClt (rd rs1 rs2 : Reg) (s : State) : Result :=
  .next (s.complete rd (outcomeWord (s.signedReg rs1 < s.signedReg rs2)))

/-- CLE (R114). -/
def execCle (rd rs1 rs2 : Reg) (s : State) : Result :=
  .next (s.complete rd (outcomeWord (s.signedReg rs1 ≤ s.signedReg rs2)))

/-- CGT (R115). -/
def execCgt (rd rs1 rs2 : Reg) (s : State) : Result :=
  .next (s.complete rd (outcomeWord (s.signedReg rs1 > s.signedReg rs2)))

/-- CGE (R116). -/
def execCge (rd rs1 rs2 : Reg) (s : State) : Result :=
  .next (s.complete rd (outcomeWord (s.signedReg rs1 ≥ s.signedReg rs2)))

end Sys2Proof.Machine
end

