-- ==== Sys2Proof/Machine/Convert.lean ====
section
/-! DEFINITION. Conversion: F2X.S F2X.D I2X X2I (44_convert.md). Integer shifts only, no fault, whatever the
bits (R175). -/

namespace Sys2Proof.Machine

/-- The FixedPoint of an IEEE pattern with `fracBits` fraction bits, where a biased exponent of `align` needs no
shift: the magnitude is shifted onto the grid and truncated, and the sign applied afterwards (R175, R176). -/
def ieeeToFixed (fracBits align : Nat) (p : IeeeParts) : Word :=
  let m := if p.exponent = 0 then p.fraction else 2 ^ fracBits + p.fraction
  let mag := if align ≤ p.exponent then m * 2 ^ (p.exponent - align) else m / 2 ^ (align - p.exponent)
  let r := wrap64 mag
  if p.sign then wrap64 (-r.toNat) else r

/-- F2X.S (R177): 134 = 127 + 23 - 16. -/
def execF2xs (rd rs1 : Reg) (s : State) : Result :=
  .next (s.complete rd (ieeeToFixed 23 134 (binary32Parts (s.readReg rs1))))

/-- F2X.D (R176): 1059 = 1023 + 52 - 16. -/
def execF2xd (rd rs1 : Reg) (s : State) : Result :=
  .next (s.complete rd (ieeeToFixed 52 1059 (binary64Parts (s.readReg rs1))))

/-- I2X (R179). -/
def execI2x (rd rs1 : Reg) (s : State) : Result := .next (s.complete rd (wrap64 (shl (s.signedReg rs1) 16)))

/-- X2I (R180): the floor. -/
def execX2i (rd rs1 : Reg) (s : State) : Result := .next (s.complete rd (wrap64 (asr (s.signedReg rs1) 16)))

end Sys2Proof.Machine
end

