-- ==== Sys2Proof/Machine/System.lean ====
section
/-! DEFINITION. Data movement and status: NOP LDR RDR MOV RDSR CLSR (45_system.md). -/

namespace Sys2Proof.Machine

/-- NOP (R190). -/
def execNop (s : State) : Result := .next (s.respond .ok 0)

/-- LDR (R191): any 64 bits may be loaded. -/
def execLdr (rd : Reg) (datum : Word) (s : State) : Result := .next (s.complete rd datum)

/-- RDR (R192): the read has no other effect. -/
def execRdr (rs1 : Reg) (s : State) : Result := .next (s.respond .ok (s.readReg rs1))

/-- MOV (R193). -/
def execMov (rd rs1 : Reg) (s : State) : Result := .next (s.complete rd (s.readReg rs1))

/-- RDSR (R194): reading does not clear. -/
def execRdsr (s : State) : Result := .next (s.respond .ok s.fsr.toWord)

/-- CLSR (R195): there is no selective clear. -/
def execClsr (s : State) : Result := .next (s.clearFsr.respond .ok 0)

end Sys2Proof.Machine
end

