-- ==== Sys2Proof/Machine/Divisor.lean ====
section
/-! DEFINITION. The high-precision divisor: LDHC DIVH MODH (43_hp_divisor.md). -/

namespace Sys2Proof.Machine

/-- What DIVH writes for a non-zero divisor: the dividend widened exactly, the low 64 bits of the quotient (R164). -/
def divhValue (a h : Int) : Word := wrap64 (quotient divRound (shl a 32) h)

/-- What MODH writes for a non-zero modulus: the remainder at scale 2^32, brought back to scale 2^16 (R165). -/
def modhValue (a h : Int) : Word := wrap64 (asr (remainder divRound (shl a 16) h) 16)

/-- LDHC (R163). -/
def execLdhc (rd : Reg) (imm12 : BitVec 12) (s : State) : Result :=
  .next (s.complete rd (catalog (catalogIndex imm12)))

/-- DIVH (R164): defined for every 64-bit `rs2`, from the catalog or not (R161). -/
def execDivh (rd rs1 rs2 : Reg) (s : State) : Result :=
  .next (if s.signedReg rs2 = 0 then s.raise .dz
    else s.complete rd (divhValue (s.signedReg rs1) (s.signedReg rs2)))

/-- MODH (R165): defined for every 64-bit `rs2`, from the catalog or not (R161). -/
def execModh (rd rs1 rs2 : Reg) (s : State) : Result :=
  .next (if s.signedReg rs2 = 0 then s.raise .dz
    else s.complete rd (modhValue (s.signedReg rs1) (s.signedReg rs2)))

end Sys2Proof.Machine
end

