-- ==== Sys2Proof/Machine/Transcendental.lean ====
section
/-! DEFINITION. The lookup-table engine: SQRT SQRTR LOG2 LN LOG10 EXP SIN COS TAN ASIN ACOS ATAN ATAN2
(42_transcendental.md). Each is a total function of the record `T` inside the checks, sentinels and
saturations the spec settles (R121). -/

namespace Sys2Proof.Machine

open Config (T)

/-- What EXP writes: zero below the low cut-off, `MAX_RAW` above the high one, an argument equal to a cut-off
not saturated (R131). -/
def expValue (v : Word) : Word :=
  if v.toInt < T.expLo.toInt then 0 else if v.toInt > T.expHi.toInt then maxRaw else T.expCore v

/-- Outside the closed domain [-1, 1] of ASIN and ACOS (R138). -/
def outsideUnit (a : Int) : Bool := a < -65536 || a > 65536

/-- What ASIN writes (R139). -/
def asinValue (v : Word) : Word := if outsideUnit v.toInt then minRaw else T.asinCore v

/-- What ACOS writes (R140). -/
def acosValue (v : Word) : Word := if outsideUnit v.toInt then minRaw else T.acosCore v

/-- What ATAN2 writes for y and x (R143). -/
def atan2Value (y x : Word) : Word := if y.toInt = 0 ∧ x.toInt = 0 then 0 else T.atan2Core y x

/-- What a logarithm writes that divides the base-2 logarithm by entry k of the catalog: exactly DIVH (R128, R129). -/
def scaledLog (v : Word) (k : Fin 8) : Word := divhValue (T.log2Core v).toInt (catalog k).toInt

/-- SQRT (R123): zero is in the domain. -/
def execSqrt (rd rs1 : Reg) (s : State) : Result :=
  .next (if s.signedReg rs1 < 0 then s.raise .dom else s.complete rd (T.sqrtCore (s.readReg rs1)))

/-- SQRTR (R124): no domain check; the operand is an unsigned magnitude. -/
def execSqrtr (rd rs1 : Reg) (s : State) : Result := .next (s.complete rd (T.sqrtCore (s.readReg rs1)))

/-- LOG2 (R127): the operand is tested before anything else. -/
def execLog2 (rd rs1 : Reg) (s : State) : Result :=
  .next (if s.signedReg rs1 ≤ 0 then s.raise .dom else s.complete rd (T.log2Core (s.readReg rs1)))

/-- LN (R128). -/
def execLn (rd rs1 : Reg) (s : State) : Result :=
  .next (if s.signedReg rs1 ≤ 0 then s.raise .dom else s.complete rd (scaledLog (s.readReg rs1) log2eIndex))

/-- LOG10 (R129). -/
def execLog10 (rd rs1 : Reg) (s : State) : Result :=
  .next (if s.signedReg rs1 ≤ 0 then s.raise .dom else s.complete rd (scaledLog (s.readReg rs1) log2tenIndex))

/-- EXP (R131): the saturation is silent. -/
def execExp (rd rs1 : Reg) (s : State) : Result := .next (s.complete rd (expValue (s.readReg rs1)))

/-- SIN (R134). -/
def execSin (rd rs1 : Reg) (s : State) : Result := .next (s.complete rd (T.sin (s.readReg rs1)))

/-- COS (R135). -/
def execCos (rd rs1 : Reg) (s : State) : Result := .next (s.complete rd (T.cos (s.readReg rs1)))

/-- TAN (R137): no fault at a pole. -/
def execTan (rd rs1 : Reg) (s : State) : Result := .next (s.complete rd (T.tan (s.readReg rs1)))

/-- ASIN (R139). -/
def execAsin (rd rs1 : Reg) (s : State) : Result := .next (s.complete rd (asinValue (s.readReg rs1)))

/-- ACOS (R140). -/
def execAcos (rd rs1 : Reg) (s : State) : Result := .next (s.complete rd (acosValue (s.readReg rs1)))

/-- ATAN (R142). -/
def execAtan (rd rs1 : Reg) (s : State) : Result := .next (s.complete rd (T.atan (s.readReg rs1)))

/-- ATAN2 (R143): `rs1` is y, `rs2` is x. -/
def execAtan2 (rd rs1 rs2 : Reg) (s : State) : Result :=
  .next (s.complete rd (atan2Value (s.readReg rs1) (s.readReg rs2)))

end Sys2Proof.Machine
end

