-- ==== Sys2Proof/Machine/Dispatch.lean ====
section
/-! DEFINITION. Execution of a command: one arm per constructor of `Instr`, each one call of its meaning. -/

namespace Sys2Proof.Machine

def exec (i : Instr) (s : State) : Host.Outcome State Fault Refusal :=
  match i with
  | .nop => Sys2Proof.Machine.execNop s
  | .ldr rd datum => Sys2Proof.Machine.execLdr rd datum s
  | .rdr rs1 => Sys2Proof.Machine.execRdr rs1 s
  | .mov rd rs1 => Sys2Proof.Machine.execMov rd rs1 s
  | .rdsr => Sys2Proof.Machine.execRdsr s
  | .clsr => Sys2Proof.Machine.execClsr s
  | .add rd rs1 rs2 => Sys2Proof.Machine.execAdd rd rs1 rs2 s
  | .sub rd rs1 rs2 => Sys2Proof.Machine.execSub rd rs1 rs2 s
  | .mul rd rs1 rs2 => Sys2Proof.Machine.execMul rd rs1 rs2 s
  | .mult rd rs1 rs2 => Sys2Proof.Machine.execMult rd rs1 rs2 s
  | .div rd rs1 rs2 => Sys2Proof.Machine.execDiv rd rs1 rs2 s
  | .mod rd rs1 rs2 => Sys2Proof.Machine.execMod rd rs1 rs2 s
  | .neg rd rs1 => Sys2Proof.Machine.execNeg rd rs1 s
  | .abs rd rs1 => Sys2Proof.Machine.execAbs rd rs1 s
  | .min rd rs1 rs2 => Sys2Proof.Machine.execMin rd rs1 rs2 s
  | .max rd rs1 rs2 => Sys2Proof.Machine.execMax rd rs1 rs2 s
  | .adds rd rs1 rs2 => Sys2Proof.Machine.execAdds rd rs1 rs2 s
  | .subs rd rs1 rs2 => Sys2Proof.Machine.execSubs rd rs1 rs2 s
  | .muls rd rs1 rs2 => Sys2Proof.Machine.execMuls rd rs1 rs2 s
  | .ceq rd rs1 rs2 => Sys2Proof.Machine.execCeq rd rs1 rs2 s
  | .cne rd rs1 rs2 => Sys2Proof.Machine.execCne rd rs1 rs2 s
  | .clt rd rs1 rs2 => Sys2Proof.Machine.execClt rd rs1 rs2 s
  | .cle rd rs1 rs2 => Sys2Proof.Machine.execCle rd rs1 rs2 s
  | .cgt rd rs1 rs2 => Sys2Proof.Machine.execCgt rd rs1 rs2 s
  | .cge rd rs1 rs2 => Sys2Proof.Machine.execCge rd rs1 rs2 s
  | .sqrt rd rs1 => Sys2Proof.Machine.execSqrt rd rs1 s
  | .sqrtr rd rs1 => Sys2Proof.Machine.execSqrtr rd rs1 s
  | .log2 rd rs1 => Sys2Proof.Machine.execLog2 rd rs1 s
  | .ln rd rs1 => Sys2Proof.Machine.execLn rd rs1 s
  | .log10 rd rs1 => Sys2Proof.Machine.execLog10 rd rs1 s
  | .exp rd rs1 => Sys2Proof.Machine.execExp rd rs1 s
  | .sin rd rs1 => Sys2Proof.Machine.execSin rd rs1 s
  | .cos rd rs1 => Sys2Proof.Machine.execCos rd rs1 s
  | .tan rd rs1 => Sys2Proof.Machine.execTan rd rs1 s
  | .asin rd rs1 => Sys2Proof.Machine.execAsin rd rs1 s
  | .acos rd rs1 => Sys2Proof.Machine.execAcos rd rs1 s
  | .atan rd rs1 => Sys2Proof.Machine.execAtan rd rs1 s
  | .atan2 rd rs1 rs2 => Sys2Proof.Machine.execAtan2 rd rs1 rs2 s
  | .ldhc rd imm12 => Sys2Proof.Machine.execLdhc rd imm12 s
  | .divh rd rs1 rs2 => Sys2Proof.Machine.execDivh rd rs1 rs2 s
  | .modh rd rs1 rs2 => Sys2Proof.Machine.execModh rd rs1 rs2 s
  | .f2xs rd rs1 => Sys2Proof.Machine.execF2xs rd rs1 s
  | .f2xd rd rs1 => Sys2Proof.Machine.execF2xd rd rs1 s
  | .i2x rd rs1 => Sys2Proof.Machine.execI2x rd rs1 s
  | .x2i rd rs1 => Sys2Proof.Machine.execX2i rd rs1 s

end Sys2Proof.Machine
end

