-- ==== Sys2Proof/Machine/Port.lean ====
section
/-! DEFINITION. The command port (30_encoding.md R61, R62; 70_reset_and_hazards.md R220 to R229): accepting a
command, holding it for its latency, answering it, reset, and what one event of the host does. -/

namespace Sys2Proof.Machine

/-- Executing an accepted command: an illegal word is not executed at all and faults with `ILL` (R75, R207). -/
def runCommand (c : Command) (s : State) : Result :=
  match decode c with
  | some i => exec i s
  | none => .next (s.raise .ill)

/-- The command in flight is answered. -/
def finish (f : InFlight) (s : State) : Result := runCommand f.command { s with inFlight := none }

/-- One rising edge for a command in flight: it is answered, or one edge fewer is left, `rsp_valid` staying 0. -/
def tick (f : InFlight) (s : State) : Result :=
  match f.left with
  | 0 => finish f s
  | n + 1 => .next { s with inFlight := some ⟨f.command, n⟩, rsp := none }

/-- The command in flight right after a command is accepted; its latency is that of its opcode (R229). -/
def accepted (c : Command) : InFlight := ⟨c, Config.latencyExtra (opcodeField c.word)⟩

/-- One rising edge of `clk` with the given pins (R61). Reset comes before everything and abandons a command in
flight (R220, R221). A command in flight goes on whatever the pins say (R62). A command presented while
`cmd_ready` = 1 is accepted; otherwise the FXU idles (R216, R227). -/
def edge (p : Pins) (s : State) : Result :=
  if p.rst then .next s.applyReset
  else match s.inFlight with
    | some f => tick f s
    | none =>
      if p.cmdValid && s.cmdReady then tick (accepted ⟨p.cmdWord, p.cmdData⟩) s
      else .next s.clearPulse

/-- What the FXU does next (R20, R62). A whole command of the host is one step, from acceptance to response.
While an earlier command is in flight the host waits for its response first; with nothing to do the FXU idles. -/
def nextEvent (s : State) : Result :=
  match s.host, s.inFlight with
  | .edge p :: rest, _ => edge p { s with host := rest }
  | .command c :: rest, none => runCommand c { s with host := rest }
  | .command _ :: _, some f => finish f s
  | [], some f => finish f s
  | [], none => .next s.clearPulse

/-- The rising edges of a list of pins, one after the other. -/
def runEdges : List Pins → State → Result
  | [], s => .next s
  | p :: ps, s =>
    match edge p s with
    | .next t => runEdges ps t
    | .fault r => .fault r
    | .refused r => .refused r

/-- Presenting a command as the host's very next event, to a block with no command in flight. -/
def presentNext (c : Command) (s : State) : State := { s with inFlight := none, host := .command c :: s.host }

end Sys2Proof.Machine
end

