-- ==== Sys2Proof/Machine/Step.lean ====
section
/-! DEFINITION. One step of the FXU, and how the host's next command is put where the next step takes it. -/

namespace Sys2Proof.Machine

/-- One step: what the host's next event makes the FXU do. -/
def step (s : State) : Host.Outcome State Fault Refusal := nextEvent s

/-- The FXU fetches nothing (R25): its next command is the host's. So the instruction of `nbits` bits `w` is
presented as the host's next event (log entry 1). -/
def State.withFetchWord (s : State) (nbits w : Nat) : State := presentNext (commandOfBits (w % 2 ^ nbits)) s

end Sys2Proof.Machine
end

