-- ==== Sys2Proof/Machine/Assembler.lean ====
section
/-! DEFINITION. The assembler syntax of R77 and the pseudo-instructions of R78. -/

namespace Sys2Proof.Machine

/-- The mnemonic of a command (R67). -/
def mnemonic : Instr → String
  | .nop => "NOP"
  | .ldr _ _ => "LDR"
  | .rdr _ => "RDR"
  | .mov _ _ => "MOV"
  | .rdsr => "RDSR"
  | .clsr => "CLSR"
  | .add _ _ _ => "ADD"
  | .sub _ _ _ => "SUB"
  | .mul _ _ _ => "MUL"
  | .mult _ _ _ => "MULT"
  | .div _ _ _ => "DIV"
  | .mod _ _ _ => "MOD"
  | .neg _ _ => "NEG"
  | .abs _ _ => "ABS"
  | .min _ _ _ => "MIN"
  | .max _ _ _ => "MAX"
  | .adds _ _ _ => "ADDS"
  | .subs _ _ _ => "SUBS"
  | .muls _ _ _ => "MULS"
  | .ceq _ _ _ => "CEQ"
  | .cne _ _ _ => "CNE"
  | .clt _ _ _ => "CLT"
  | .cle _ _ _ => "CLE"
  | .cgt _ _ _ => "CGT"
  | .cge _ _ _ => "CGE"
  | .sqrt _ _ => "SQRT"
  | .sqrtr _ _ => "SQRTR"
  | .log2 _ _ => "LOG2"
  | .ln _ _ => "LN"
  | .log10 _ _ => "LOG10"
  | .exp _ _ => "EXP"
  | .sin _ _ => "SIN"
  | .cos _ _ => "COS"
  | .tan _ _ => "TAN"
  | .asin _ _ => "ASIN"
  | .acos _ _ => "ACOS"
  | .atan _ _ => "ATAN"
  | .atan2 _ _ _ => "ATAN2"
  | .ldhc _ _ => "LDHC"
  | .divh _ _ _ => "DIVH"
  | .modh _ _ _ => "MODH"
  | .f2xs _ _ => "F2X.S"
  | .f2xd _ _ => "F2X.D"
  | .i2x _ _ => "I2X"
  | .x2i _ _ => "X2I"

/-- A register operand, `x0` to `x15`. -/
def regText (r : Reg) : String := "x" ++ toString r.val

/-- One hexadecimal digit. -/
def hexDigit (n : Nat) : Char := "0123456789ABCDEF".toList.getD n '0'

/-- A 64-bit datum as `#0x` and 16 hexadecimal digits. -/
def datumText (v : Word) : String :=
  "#0x" ++ String.ofList ((List.range 16).map fun k => hexDigit (v.toNat / 16 ^ (15 - k) % 16))

/-- The catalog names of R162. -/
def catalogName : Fin 8 → String
  | 0 => "PI"
  | 1 => "TWO_PI"
  | 2 => "E"
  | 3 => "LOG2_E"
  | 4 => "LOG2_10"
  | 5 => "DEG2RAD"
  | 6 => "RAD2DEG"
  | 7 => "HALF_PI"

/-- The operands of a command, destination first (R77). LDHC is written with the catalog name (log entry 22). -/
def operandTexts : Instr → List String
  | .ldr rd datum => [regText rd, datumText datum]
  | .ldhc rd imm12 => [regText rd, catalogName (catalogIndex imm12)]
  | i => i.dest.toList.map regText ++ i.sources.map regText

/-- A command in assembler syntax (R77). -/
def assemblerText (i : Instr) : String :=
  match operandTexts i with
  | [] => mnemonic i
  | ops => mnemonic i ++ " " ++ ", ".intercalate ops

/-- The pseudo-instructions of R78. -/
inductive Pseudo where
  | clamp (rd rs lo hi : Reg)
  | sqr (rd rs : Reg)
  | ldx (rd : Reg) (n : Int)
  | ldone (rd : Reg)
deriving DecidableEq, Repr

/-- What a pseudo-instruction expands to (R78). -/
def Pseudo.expand : Pseudo → List Instr
  | .clamp rd rs lo hi => [.max rd rs lo, .min rd rd hi]
  | .sqr rd rs => [.mul rd rs rs]
  | .ldx rd n => [.ldr rd (wrap64 (n * 65536))]
  | .ldone rd => [.ldr rd one]

/-- Commands executed one after the other, each to completion (R226). -/
def execAll : List Instr → State → Result
  | [], s => .next s
  | i :: is, s =>
    match exec i s with
    | .next t => execAll is t
    | .fault r => .fault r
    | .refused r => .refused r

end Sys2Proof.Machine
end

