-- ==== Sys2Proof/Machine/Engine.lean ====
section
/-! DEFINITION. The algorithm sketches of the lookup-table engine (R122, R125, R126, R130, R132, R133, R136, R141)
as functions of the tables of R14 and R41. Whatever no source gives (an index map, a cut, a quantisation, a
rounding, a scale) is a field of `Config.EngineRom`. NO MEANING READS THIS FILE: R121 lets a model assume of the
record `T` its listed properties only, not that it is built this way. Where a sketch settles what the spec
leaves open, its docstring says so (log entry 21). -/

namespace Sys2Proof.Config

open Machine

/-- An entry of a table whose width is not stated (R41, N6), as the integer it stands for. -/
def tableEntry (tbl : List Int) (k : Nat) : Int := tbl.getD k 0

/-- R122: the table on its native domain, elsewhere the mantissa's root shifted left by half the exponent. -/
def EngineRom.sqrtSketch (rom : EngineRom) (v : Word) : Word :=
  if v.toNat ≤ rom.sqrtNative then rom.sqrtScale (tableEntry rom.sqrtTbl (rom.sqrtIndex v.toNat))
  else rom.sqrtScale
    (shl (tableEntry rom.sqrtTbl (rom.expMant v.toNat).2) ((rom.expMant v.toNat).1 / 2))

/-- R126: the low part of the window. -/
def EngineRom.log2Low (rom : EngineRom) (n : Nat) : Nat := rom.log2Fraction n % 2 ^ rom.log2FractionBits

/-- R126: the table entry, the linear term and the quadratic correction. -/
def EngineRom.log2Interp (rom : EngineRom) (n : Nat) : Int :=
  tableEntry rom.log2Tbl (rom.log2Index n) +
    rom.log2Terms ((rom.log2Neighbours (rom.log2Index n)).map (tableEntry rom.log2Tbl)) (rom.log2Low n)

/-- R126: log2(n / 65536) = (k - 16) + log2(1.w). -/
def EngineRom.log2Sketch (rom : EngineRom) (v : Word) : Word :=
  wrap64 (shl ((v.toNat.log2 : Int) - 16) 16 + rom.log2Interp v.toNat)

/-- R130: the multiply that combines the two parts, rounded or truncating. -/
def EngineRom.expMultiply (rom : EngineRom) (a b : Int) : Word :=
  if rom.expRounds then mulValue productWidth a b else multValue productWidth a b

/-- R130: the polynomial of the fractional remainder times the scale factor of the integer part, one multiply. -/
def EngineRom.expSketch (rom : EngineRom) (v : Word) : Word :=
  let i := rom.expSplit v.toInt
  rom.expMultiply (rom.expPoly rom.expCoef (v.toInt - shl i 16)) (tableEntry rom.expTbl (i - rom.expMin).toNat)

/-- R132: the remainder of an angle by 2π, with MODH by `TWO_PI` as decision D24 has it. -/
def angleRemainder (v : Word) : Int := (modhValue v.toInt (catalog twoPiIndex).toInt).toInt

/-- R132, R133: the one entry that SIN and COS of an angle read. -/
def EngineRom.sinCosEntry (rom : EngineRom) (v : Word) : BitVec 64 :=
  rom.sinCosTbl.getD (rom.sinCosIndex (rom.angleFold.fold (angleRemainder v))) 0

/-- The cosine half of that entry (R133). -/
def EngineRom.cosineHalf (rom : EngineRom) (v : Word) : BitVec 32 := (rom.sinCosEntry v).extractLsb' 32 32

/-- The sine half of that entry (R133). -/
def EngineRom.sineHalf (rom : EngineRom) (v : Word) : BitVec 32 := (rom.sinCosEntry v).extractLsb' 0 32

/-- R134 as R132 and R133 build it: sin(-t) = -sin(t) where a negative remainder is folded by symmetry. -/
def EngineRom.sinSketch (rom : EngineRom) (v : Word) : Word :=
  let y := rom.sinOf (rom.cosineHalf v) (rom.sineHalf v)
  if rom.angleFold = .bySymmetry ∧ angleRemainder v < 0 then -y else y

/-- R135 as R132 and R133 build it: cos(-t) = cos(t), so a fold by symmetry leaves it. -/
def EngineRom.cosSketch (rom : EngineRom) (v : Word) : Word := rom.cosOf (rom.cosineHalf v) (rom.sineHalf v)

/-- A function of the magnitude, the sign of the argument put back: sign folding. The magnitude is the unbounded
absolute value (R15), 2^63 for `MIN_RAW`. -/
def foldSign (f : Nat → Word) (v : Word) : Word := if v.toInt < 0 then -f v.toInt.natAbs else f v.toInt.natAbs

/-- R136: the magnitude reduced by the period, the sign folded. That the sign is taken out before the reduction is a
DESIGN CHOICE (log entry 21): the spec names both and gives them no order. -/
def EngineRom.tanSketch (rom : EngineRom) (v : Word) : Word :=
  foldSign (fun a => wrap64 (tableEntry rom.tanTbl (rom.tanIndex (rom.tanReduce a)))) v

/-- R138, R139: a direct table read. -/
def EngineRom.asinSketch (rom : EngineRom) (v : Word) : Word :=
  wrap64 (tableEntry rom.asinTbl (rom.asinIndex v.toInt))

/-- R138, R140: a direct table read. -/
def EngineRom.acosSketch (rom : EngineRom) (v : Word) : Word :=
  wrap64 (tableEntry rom.acosTbl (rom.acosIndex v.toInt))

/-- R141: the entry of the band a magnitude lies in. The clamp to the last entry is the spec's own guess, and no
use of atan(v) = π/2 - atan(1/v) is a DESIGN CHOICE (log entry 21): N26 leaves both open. -/
def EngineRom.atanEntry (rom : EngineRom) (a : Nat) : Int :=
  if a ≤ rom.atanBand0 then tableEntry rom.atanTbl0 (rom.atanIndex0 a)
  else if a ≤ rom.atanBand1 then tableEntry rom.atanTbl1 (rom.atanIndex1 a)
  else tableEntry rom.atanTbl2 (min (a / 2 ^ rom.atanShift2) (rom.atanTbl2.length - 1))

/-- R141: the sign folded around the bands. -/
def EngineRom.atanSketch (rom : EngineRom) (v : Word) : Word := foldSign (fun a => wrap64 (rom.atanEntry a)) v

end Sys2Proof.Config
end

