-- ==== Sys2Proof/Safety.lean ====
section
/-! DEFINITION. The terms claims are made in: logical values, the usable range, the invariant of the machine, and
what it means for a command to complete or to fault. -/

namespace Sys2Proof

open Machine

/-- The logical value of a FixedPoint raw value (R18). -/
def logical (v : Word) : ℚ := v.toInt / 65536

/-- The logical value of a HighPrecisionDivisor raw value (R18, R160). -/
def logicalHP (h : Word) : ℚ := h.toInt / 2 ^ 32

/-- The usable range of R82: a raw value representable in 32 bits. -/
def usable (v : Word) : Prop := -2 ^ 31 ≤ v.toInt ∧ v.toInt ≤ 2 ^ 31 - 1

/-- What holds of the FXU at every moment of every run: the port shows the last response of the run (R62); no
response stands at the port while a command is in flight (R62); a response other than `OK` carries zero (R65);
a flag of `FSR` is up only if the run has had the fault it stands for (R28). -/
structure Invariant (s : State) : Prop where
  port : ∀ r, s.rsp = some r → s.responses.getLast? = some r
  busy : s.inFlight ≠ none → s.rsp = none
  data : ∀ r ∈ s.responses, r.code ≠ .ok → r.data = 0
  flag : ∀ c : FaultCause, s.fsr.flag c = true → ∃ r ∈ s.responses, r.code = c.code

/-- From `s` to `t` one command was answered with the given code and datum, and nothing happened at the port
besides (R62, R65). -/
structure Answered (s t : State) (code : RspCode) (data : Word) : Prop where
  rsp : t.rsp = some ⟨code, data⟩
  responses : t.responses = s.responses ++ [⟨code, data⟩]
  inFlight : t.inFlight = s.inFlight
  host : t.host = s.host

/-- The command completes: it writes v to rd and nothing else, and answers (`OK`, 0) (R23, R65). -/
def Writes (i : Instr) (s : State) (rd : Reg) (v : Word) : Prop :=
  ∃ t, exec i s = .next t ∧ t.readReg rd = v ∧ (∀ r, r ≠ rd → t.readReg r = s.readReg r) ∧ t.fsr = s.fsr ∧
    Answered s t .ok 0

/-- The command completes with a datum for the host and writes nothing. -/
def Reads (i : Instr) (s : State) (data : Word) : Prop :=
  ∃ t, exec i s = .next t ∧ t.x = s.x ∧ t.fsr = s.fsr ∧ Answered s t .ok data

/-- An outcome of the machine from `s` that is a fault of the FXU (R203): no general register is written, the
fault's flag is up and the other two are as they were, the response is (code, 0). -/
def FaultsFrom (o : Host.Outcome State Machine.Fault Refusal) (s : State) (c : FaultCause) : Prop :=
  ∃ t, o = .next t ∧ t.x = s.x ∧ t.fsr.flag c = true ∧ (∀ d, d ≠ c → t.fsr.flag d = s.fsr.flag d) ∧
    Answered s t c.code 0

/-- The command the next step answers, if it answers one: the one the host presents whole, the one in flight while the
host waits for it, or at an edge without reset the one whose last edge it is (R62, R221, R229). -/
def answeredCommand (s : State) : Option Command :=
  match s.host, s.inFlight with
  | .edge p :: _, some f => if p.rst = false ∧ f.left = 0 then some f.command else none
  | .edge p :: _, none =>
    if p.rst = false ∧ p.cmdValid = true ∧ s.cmdReady = true ∧ (accepted ⟨p.cmdWord, p.cmdData⟩).left = 0
    then some ⟨p.cmdWord, p.cmdData⟩ else none
  | .command c :: _, none => some c
  | .command _ :: _, some f => some f.command
  | [], some f => some f.command
  | [], none => none

/-- The next step is a rising edge with `rst` = 1 (R220). -/
def ResetsNext (s : State) : Prop := ∃ (p : Pins) (rest : List HostEvent), s.host = .edge p :: rest ∧ p.rst = true

/-- The command faults. -/
def Faults (i : Instr) (s : State) (c : FaultCause) : Prop := FaultsFrom (exec i s) s c

end Sys2Proof
end

