-- ==== Sys2Proof/Certificates/Slice0/Obligations.lean ====
section
/-! DEFINITION. The statements for the provers. Many results are stated a second time as the bit-vector datapath a
hardware would have, so that the spec's integer pseudocode and the datapath are shown to agree. Where a
statement rests on a choice the spec marks as its own, its docstring names the decision D<n>. -/

open Sys2Proof Sys2Proof.Machine

/-! ### Reset, steps and the port -/

/-- R31 (decision D27): the state after reset. -/
def Obligations.ResetStateAsListed : Prop :=
  (∀ r, State.reset.readReg r = 0) ∧ State.reset.fsr.toWord = 0 ∧ State.reset.cmdReady = true ∧
    State.reset.inFlight = none ∧ State.reset.rsp = none

/-- The reset state meets the invariant of `Safety.lean`. -/
def Obligations.ResetMeetsInvariant : Prop := Invariant State.reset

/-- Every step keeps the invariant (R28, R62, R65): from any state that meets it, reached or not. -/
def Obligations.StepKeepsInvariant : Prop := ∀ s t, Invariant s → step s = .next t → Invariant t

/-- R62, R226: a command whose word spells `i`, presented to a block with no command in flight, is executed by
the next step, and that is all the step does besides taking the command off the host's list. -/
def Obligations.StepExecutesPresentedCommand : Prop :=
  ∀ (s : State) (c : Command) (rest : List HostEvent) (i : Instr),
    s.inFlight = none → s.host = .command c :: rest → decode c = some i →
      WellFormed i ∧ step s = exec i { s with host := rest }

/-- An instruction's bits placed with `withFetchWord` are what the very next step executes. -/
def Obligations.FetchWordIsExecutedNext : Prop :=
  ∀ (s : State) (nbits w : Nat) (i : Instr), decodeTableWord nbits w = some i →
    step (s.withFetchWord nbits w) = exec i { s with inFlight := none }

/-- R75, R203, R207 (decisions D7, D25, D26): an illegal word is not executed, whatever the registers hold; it
raises `ILL` and nothing else. -/
def Obligations.IllegalWordRaisesIllOnly : Prop :=
  ∀ (s : State) (c : Command) (rest : List HostEvent),
    s.inFlight = none → s.host = .command c :: rest → decode c = none →
      FaultsFrom (step s) { s with host := rest } .ill

/-- R220, R221, R223 (decision D27): a rising edge with `rst` = 1 gives the reset state from every state
whatever, one before the first reset or with a command in flight included, and no response. -/
def Obligations.ResetEdgeGivesResetState : Prop :=
  ∀ (s : State) (p : Pins) (rest : List HostEvent), s.host = .edge p :: rest → p.rst = true →
    step s = .next { State.reset with host := rest }

/-- R62, R216, R227 (decision D2; that the response cycle counts as not ready is log entry 4): with `rst` = 0, an
edge while `cmd_ready` = 0 does not depend on the command pins, and an edge at which no command is presented and
none is in flight changes no register and no flag and gives no response. -/
def Obligations.CommandPinsCountOnlyWhenReady : Prop :=
  ∀ (s : State) (p q : Pins), p.rst = false → q.rst = false →
    (s.cmdReady = false → edge p s = edge q s) ∧
    (s.inFlight = none → p.cmdValid = false → ∃ t, edge p s = .next t ∧ t.x = s.x ∧ t.fsr = s.fsr ∧
      t.inFlight = none ∧ t.rsp = none ∧ t.responses = s.responses)

/-- R62, R228, R229 (decisions D2, D28): a command accepted at an edge and left alone by `rst` is answered at the
end of its latency with exactly the effect of the one step of R62, whatever the command pins do meanwhile; and
before that it has given no response, changed nothing, and kept `cmd_ready` = 0. -/
def Obligations.EdgesRefineCommandStep : Prop :=
  ∀ (s : State) (p : Pins) (ps : List Pins), s.cmdReady = true → p.rst = false → p.cmdValid = true →
    (∀ q ∈ ps, q.rst = false) → ps.length ≤ Config.latencyExtra (opcodeField p.cmdWord) →
      ∃ t, runEdges (p :: ps) s = .next t ∧
        if ps.length = Config.latencyExtra (opcodeField p.cmdWord)
        then step { s with host := .command ⟨p.cmdWord, p.cmdData⟩ :: s.host } = .next t
        else t.cmdReady = false ∧ t.rsp = none ∧ t.x = s.x ∧ t.fsr = s.fsr ∧ t.responses = s.responses ∧
          t.host = s.host

/-- R62, R226 (decisions D2, D28): commands presented one after the other are all answered, each by its own step with
exactly one response and so in the order presented, and nothing of the earlier responses changes. -/
def Obligations.CommandsAnsweredInOrder : Prop :=
  ∀ (cs : List Command) (rest : List HostEvent) (s : State), s.inFlight = none →
    s.host = cs.map .command ++ rest →
      ∃ rs : List Response, rs.length = cs.length ∧ ∀ k ≤ cs.length, ∃ t : State,
        Host.Core.run Sys2Proof.core k s = .next t ∧ t.inFlight = none ∧
        t.host = (cs.drop k).map .command ++ rest ∧ t.responses = s.responses ++ rs.take k

/-- R228: no command can hang. From every state a step goes on, and a command in flight is answered after the
edges it has left, if `rst` stays 0. -/
def Obligations.EveryAcceptedCommandIsAnswered : Prop :=
  (∀ s : State, ∃ t, step s = .next t) ∧
  ∀ (s : State) (f : InFlight) (ps : List Pins), s.inFlight = some f → ps.length = f.left + 1 →
    (∀ q ∈ ps, q.rst = false) →
      ∃ t r, runEdges ps s = .next t ∧ t.inFlight = none ∧ t.rsp = some r ∧ t.responses = s.responses ++ [r]

/-! ### Command words -/

/-- R67, R77: words written out from the fields of R63 decode to the commands they spell, one of each family. -/
def Obligations.SpecWordsDecode : Prop :=
  decode ⟨0x05000000, 7⟩ = some .clsr ∧ decode ⟨0x01100000, 0x18000⟩ = some (.ldr 1 0x18000) ∧
  decode ⟨0x02030000, 7⟩ = some (.rdr 3) ∧ decode ⟨0x16430000, 7⟩ = some (.neg 4 3) ∧
  decode ⟨0x10312000, 7⟩ = some (.add 3 1 2) ∧ decode ⟨0x22B70000, 7⟩ = some (.clt 11 7 0) ∧
  decode ⟨0x3C500000, 7⟩ = some (.atan2 5 0 0) ∧ decode ⟨0x40200001, 7⟩ = some (.ldhc 2 1) ∧
  decode ⟨0x51310000, 7⟩ = some (.f2xd 3 1) ∧ decode ⟨0x10312001, 7⟩ = none ∧ decode ⟨0x40200008, 7⟩ = none

/-- R77: the assembler text of the examples. -/
def Obligations.AssemblerExamples : Prop :=
  assemblerText .clsr = "CLSR" ∧ assemblerText (.ldr 1 0x18000) = "LDR x1, #0x0000000000018000" ∧
  assemblerText (.rdr 3) = "RDR x3" ∧ assemblerText (.neg 4 3) = "NEG x4, x3" ∧
  assemblerText (.add 3 1 2) = "ADD x3, x1, x2" ∧ assemblerText (.ldhc 2 1) = "LDHC x2, TWO_PI"

/-- Decoding what a term encodes to gives it back when it is well formed, with every operand at every value, and is
refused when it is not (R64, R75). -/
def Obligations.DecodeOfEncode : Prop := ∀ i : Instr, decode (encode i) = if i.wf then some i else none

/-- The other direction: a word spells `i` exactly when it is the word `i` encodes to, and LDR's operand is the
datum presented (R63, R64, R66, R67, R77). -/
def Obligations.DecodedExactlyWhenEncoded : Prop :=
  ∀ (c : Command) (i : Instr), decode c = some i ↔
    WellFormed i ∧ encodeWord i = c.word ∧ ∀ rd datum, i = .ldr rd datum → datum = c.data

/-- `match` and `mask` of each row of spec/opcode_table.json, in its order, transcribed from that file. -/
def Sys2Proof.tableRows : List (CmdWord × CmdWord) :=
  [ (0x00000000, 0xFFFFFFFF), (0x01000000, 0xFF0FFFFF), (0x02000000, 0xFFF0FFFF), (0x03000000, 0xFF00FFFF),
    (0x04000000, 0xFFFFFFFF), (0x05000000, 0xFFFFFFFF) ] ++
  [ (0x10000000, 0xFF000FFF), (0x11000000, 0xFF000FFF), (0x12000000, 0xFF000FFF), (0x13000000, 0xFF000FFF),
    (0x14000000, 0xFF000FFF), (0x15000000, 0xFF000FFF), (0x16000000, 0xFF00FFFF), (0x17000000, 0xFF00FFFF),
    (0x18000000, 0xFF000FFF), (0x19000000, 0xFF000FFF), (0x1A000000, 0xFF000FFF), (0x1B000000, 0xFF000FFF),
    (0x1C000000, 0xFF000FFF) ] ++
  [ (0x20000000, 0xFF000FFF), (0x21000000, 0xFF000FFF), (0x22000000, 0xFF000FFF), (0x23000000, 0xFF000FFF),
    (0x24000000, 0xFF000FFF), (0x25000000, 0xFF000FFF) ] ++
  [ (0x30000000, 0xFF00FFFF), (0x31000000, 0xFF00FFFF), (0x32000000, 0xFF00FFFF), (0x33000000, 0xFF00FFFF),
    (0x34000000, 0xFF00FFFF), (0x35000000, 0xFF00FFFF), (0x36000000, 0xFF00FFFF), (0x37000000, 0xFF00FFFF),
    (0x38000000, 0xFF00FFFF), (0x39000000, 0xFF00FFFF), (0x3A000000, 0xFF00FFFF), (0x3B000000, 0xFF00FFFF),
    (0x3C000000, 0xFF000FFF) ] ++
  [ (0x40000000, 0xFF0FFFF8), (0x41000000, 0xFF000FFF), (0x42000000, 0xFF000FFF), (0x50000000, 0xFF00FFFF),
    (0x51000000, 0xFF00FFFF), (0x52000000, 0xFF00FFFF), (0x53000000, 0xFF00FFFF) ]

/-- R75, R79 (decision D7): whatever the datum, a word is legal exactly when some row of the opcode table has
`word & mask == match`, and no two rows match one word. -/
def Obligations.LegalExactlyByTheTable : Prop :=
  (∀ c : Command, (decode c).isSome = true ↔ ∃ r ∈ tableRows, c.word &&& r.2 = r.1) ∧
  ∀ r ∈ tableRows, ∀ q ∈ tableRows, ∀ w : CmdWord, w &&& r.2 = r.1 → w &&& q.2 = q.1 → r = q

/-- R66, R79 (decision D7): the datum changes nothing of what a word spells, but for LDR's operand. -/
def Obligations.DatumReachesLdrAlone : Prop :=
  ∀ (w : CmdWord) (d e : Word), (decode ⟨w, d⟩ = none ↔ decode ⟨w, e⟩ = none) ∧
    ∀ i, decode ⟨w, d⟩ = some i → (∀ rd datum, i ≠ .ldr rd datum) → decode ⟨w, e⟩ = some i

/-- R74 (decision D7): every reserved opcode is illegal, whatever the other bits. -/
def Obligations.ReservedOpcodesAreIllegal : Prop :=
  ∀ c : Command, ((0x06 ≤ opcodeField c.word ∧ opcodeField c.word ≤ 0x0F) ∨
      (0x1D ≤ opcodeField c.word ∧ opcodeField c.word ≤ 0x1F) ∨
      (0x26 ≤ opcodeField c.word ∧ opcodeField c.word ≤ 0x2F) ∨
      (0x3D ≤ opcodeField c.word ∧ opcodeField c.word ≤ 0x3F) ∨
      (0x43 ≤ opcodeField c.word ∧ opcodeField c.word ≤ 0x4F) ∨ 0x54 ≤ opcodeField c.word) →
    decode c = none

/-! ### Data movement and status -/

/-- R190 to R193 (decisions D3, D7): LDR writes its datum and MOV the source, RDR answers with the register and
NOP with zero, and neither of these two writes anything. -/
def Obligations.DataMovement : Prop :=
  ∀ (s : State) (rd a : Reg) (datum : Word),
    Writes (.ldr rd datum) s rd datum ∧ Writes (.mov rd a) s rd (s.readReg a) ∧
    Reads (.rdr a) s (s.readReg a) ∧ Reads .nop s 0

/-- R27, R194, R195 (decision D5): RDSR answers with DZ, DOM and ILL in bits 0, 1 and 2 and zero above, and
changes nothing; after CLSR, which writes nothing else, it would answer zero. -/
def Obligations.StatusReadAndClear : Prop :=
  ∀ s : State,
    (∃ v, Reads .rdsr s v ∧ v.getLsbD 0 = s.fsr.dz ∧ v.getLsbD 1 = s.fsr.dom ∧ v.getLsbD 2 = s.fsr.ill ∧
      ∀ k, 3 ≤ k → v.getLsbD k = false) ∧
    ∃ t, exec .clsr s = .next t ∧ t.x = s.x ∧ (∀ c, t.fsr.flag c = false) ∧ Answered s t .ok 0 ∧ Reads .rdsr t 0

/-! ### Scalar arithmetic -/

/-- R84, R85, R81 (decision D8 for the wrap): ADD and SUB are addition and subtraction of 64-bit vectors. -/
def Obligations.AddSubWrap : Prop :=
  ∀ (s : State) (rd a b : Reg),
    Writes (.add rd a b) s rd (s.readReg a + s.readReg b) ∧ Writes (.sub rd a b) s rd (s.readReg a - s.readReg b)

/-- The product of two raw values in a 128-bit multiplier. -/
def Sys2Proof.product128 (a b : Word) : BitVec 128 := a.signExtend 128 * b.signExtend 128

/-- R86, R88 (decisions D9, D10): MUL and MULT as the 128-bit datapath: bias, arithmetic shift, low 64 bits. -/
def Obligations.MultiplyDatapath : Prop :=
  ∀ (s : State) (rd a b : Reg),
    Writes (.mul rd a b) s rd
      (((product128 (s.readReg a) (s.readReg b) + 0x8000).sshiftRight 16).setWidth 64) ∧
    Writes (.mult rd a b) s rd (((product128 (s.readReg a) (s.readReg b)).sshiftRight 16).setWidth 64)

/-- R82, R86, R88: on usable operands MUL is the product rounded to the nearest multiple of 2^-16, a tie going up,
and MULT the product rounded down; and either product width gives the same result. -/
def Obligations.UsableProductsAreExact : Prop :=
  ∀ (s : State) (rd a b : Reg), usable (s.readReg a) → usable (s.readReg b) →
    ∃ v w, Writes (.mul rd a b) s rd v ∧ Writes (.mult rd a b) s rd w ∧
      (logical (s.readReg a) * logical (s.readReg b) - 1 / 131072 < logical v ∧
        logical v ≤ logical (s.readReg a) * logical (s.readReg b) + 1 / 131072) ∧
      (logical (s.readReg a) * logical (s.readReg b) - 1 / 65536 < logical w ∧
        logical w ≤ logical (s.readReg a) * logical (s.readReg b)) ∧
      ∀ width, mulValue width (s.signedReg a) (s.signedReg b) = v ∧
        multValue width (s.signedReg a) (s.signedReg b) = w

/-- R87 a, made exact (log entry 20): the two product widths give the same MUL exactly when bits 79:63 of
A*B + 2^15 are all equal; A*B + 2^15 in [-2^63, 2^63) is sufficient. -/
def Obligations.ProductWidthsAgreeExactly : Prop :=
  ∀ a b : Word,
    (mulValue .exact128 a.toInt b.toInt = mulValue .wrapped64 a.toInt b.toInt ↔
      -2 ^ 63 ≤ (a.toInt * b.toInt + 2 ^ 15).bmod (2 ^ 80) ∧
        (a.toInt * b.toInt + 2 ^ 15).bmod (2 ^ 80) < 2 ^ 63) ∧
    (-2 ^ 63 ≤ a.toInt * b.toInt + 2 ^ 15 → a.toInt * b.toInt + 2 ^ 15 < 2 ^ 63 →
      mulValue .exact128 a.toInt b.toInt = mulValue .wrapped64 a.toInt b.toInt)

/-- R87 a as the spec words it, "exactly when". EXPECTED TO FAIL: vector V-MUL-17 of 95_test_vectors.md (2^40 times
2^40) gives zero at both widths although the product is outside the range (log entry 20). -/
def Obligations.ProductWidthsAgreeOnlyInRange : Prop :=
  ∀ a b : Word, mulValue .exact128 a.toInt b.toInt = mulValue .wrapped64 a.toInt b.toInt →
    -2 ^ 63 ≤ a.toInt * b.toInt + 2 ^ 15 ∧ a.toInt * b.toInt + 2 ^ 15 < 2 ^ 63

/-- R87 b, R87 c, R88 (decisions D9, D10): multiplying by `ONE` gives the operand for every 64-bit value, with MUL
and with MULT; the order of the operands does not matter; and MULT is MUL or one ulp below it when the
product does not overflow. -/
def Obligations.MultiplyLaws : Prop :=
  ∀ (s : State) (rd a b : Reg),
    (s.readReg b = one → Writes (.mul rd a b) s rd (s.readReg a) ∧ Writes (.mult rd a b) s rd (s.readReg a)) ∧
    (∃ v, Writes (.mul rd a b) s rd v ∧ Writes (.mul rd b a) s rd v) ∧
    (-2 ^ 79 ≤ s.signedReg a * s.signedReg b → s.signedReg a * s.signedReg b + 2 ^ 15 < 2 ^ 79 →
      ∃ v w, Writes (.mul rd a b) s rd v ∧ Writes (.mult rd a b) s rd w ∧ w.toInt ≤ v.toInt ∧
        v.toInt ≤ w.toInt + 1)

/-- R83, R90, R92 (decisions D11, D12, D14): for a non-zero divisor DIV is the 64-bit shift left by 16 and the 64-bit
signed division, and MOD the 64-bit signed remainder. -/
def Obligations.DivideDatapath : Prop :=
  ∀ (s : State) (rd a b : Reg), s.readReg b ≠ 0 →
    Writes (.div rd a b) s rd ((s.readReg a <<< 16).sdiv (s.readReg b)) ∧
    Writes (.mod rd a b) s rd ((s.readReg a).srem (s.readReg b))

/-- R90, R91 (decisions D11, D12, D13): for -2^47 <= A < 2^47 the dividend is the same at either width and DIV is the
exact quotient rounded toward zero: its magnitude times that of the divisor reaches the dividend's to less than
one divisor, and its sign is that of the quotient. The one quotient that does not fit is left out here and gives
`MIN_RAW` in the second clause, without a fault. -/
def Obligations.DivideRoundsTowardZero : Prop :=
  ∀ (s : State) (rd a b : Reg), s.readReg b ≠ 0 →
    (-2 ^ 47 ≤ s.signedReg a → s.signedReg a < 2 ^ 47 → ¬(s.signedReg a = -2 ^ 47 ∧ s.signedReg b = -1) →
      shiftedDividend true (s.signedReg a) = shiftedDividend false (s.signedReg a) ∧
      ∃ v, Writes (.div rd a b) s rd v ∧ |v.toInt * s.signedReg b| ≤ |s.signedReg a * 65536| ∧
        |s.signedReg a * 65536| < |v.toInt * s.signedReg b| + |s.signedReg b| ∧
        0 ≤ v.toInt * (s.signedReg a * s.signedReg b)) ∧
    (s.signedReg a = -2 ^ 47 → s.signedReg b = -1 → Writes (.div rd a b) s rd minRaw)

/-- R83, R92 (decisions D12, D14): MOD leaves the remainder of the raw values: the divisor divides what is taken
away, the magnitude is below the divisor's, and the sign is the dividend's unless it is zero. -/
def Obligations.ModuloLaws : Prop :=
  ∀ (s : State) (rd a b : Reg), s.readReg b ≠ 0 →
    ∃ v, Writes (.mod rd a b) s rd v ∧ s.signedReg b ∣ s.signedReg a - v.toInt ∧ |v.toInt| < |s.signedReg b| ∧
      0 ≤ v.toInt * s.signedReg a

/-- R93 to R96 (decision D16): NEG and ABS wrap, so `MIN_RAW` goes to itself; MIN and MAX are the minimum and the
maximum as signed integers. -/
def Obligations.SignAndExtrema : Prop :=
  ∀ (s : State) (rd a b : Reg),
    Writes (.neg rd a) s rd (-s.readReg a) ∧
    Writes (.abs rd a) s rd (if s.signedReg a < 0 then -s.readReg a else s.readReg a) ∧
    (∃ v, Writes (.min rd a b) s rd v ∧ v.toInt = min (s.signedReg a) (s.signedReg b)) ∧
    ∃ v, Writes (.max rd a b) s rd v ∧ v.toInt = max (s.signedReg a) (s.signedReg b)

/-- R97 to R99 (decision D15): the saturating forms write the exact result clamped to the signed 64-bit range. -/
def Obligations.SaturatingForms : Prop :=
  ∀ (s : State) (rd a b : Reg),
    (∃ v, Writes (.adds rd a b) s rd v ∧ v.toInt = max (-2 ^ 63) (min (2 ^ 63 - 1) (s.signedReg a + s.signedReg b))) ∧
    (∃ v, Writes (.subs rd a b) s rd v ∧ v.toInt = max (-2 ^ 63) (min (2 ^ 63 - 1) (s.signedReg a - s.signedReg b))) ∧
    ∃ v, Writes (.muls rd a b) s rd v ∧
      v.toInt = max (-2 ^ 63) (min (2 ^ 63 - 1) ((s.signedReg a * s.signedReg b + 2 ^ 15) / 2 ^ 16))

/-! ### Comparison -/

/-- R111 to R116: the six commands as the signed comparators of 64-bit vectors, 1 or 0 in the destination. -/
def Obligations.CompareDatapath : Prop :=
  ∀ (s : State) (rd a b : Reg),
    Writes (.ceq rd a b) s rd (if s.readReg a == s.readReg b then 1 else 0) ∧
    Writes (.cne rd a b) s rd (if s.readReg a != s.readReg b then 1 else 0) ∧
    Writes (.clt rd a b) s rd (if (s.readReg a).slt (s.readReg b) then 1 else 0) ∧
    Writes (.cle rd a b) s rd (if (s.readReg a).sle (s.readReg b) then 1 else 0) ∧
    Writes (.cgt rd a b) s rd (if (s.readReg b).slt (s.readReg a) then 1 else 0) ∧
    Writes (.cge rd a b) s rd (if (s.readReg b).sle (s.readReg a) then 1 else 0)

/-- R117: exactly one of CLT, CEQ and CGT gives 1, the one that holds of the logical values. -/
def Obligations.CompareOrdersLogicalValues : Prop :=
  ∀ (s : State) (rd a b : Reg), ∃ lt eq gt : Word,
    Writes (.clt rd a b) s rd lt ∧ Writes (.ceq rd a b) s rd eq ∧ Writes (.cgt rd a b) s rd gt ∧
      ((logical (s.readReg a) < logical (s.readReg b) ∧ lt = 1 ∧ eq = 0 ∧ gt = 0) ∨
        (logical (s.readReg a) = logical (s.readReg b) ∧ lt = 0 ∧ eq = 1 ∧ gt = 0) ∨
        (logical (s.readReg b) < logical (s.readReg a) ∧ lt = 0 ∧ eq = 0 ∧ gt = 1))

/-! ### Lookup-table engine -/

/-- The command's word carries the opcode in bits 31:24 and is legal. -/
def Sys2Proof.HasOpcode (i : Instr) (opcode : BitVec 8) : Prop :=
  (encodeWord i).extractLsb' 24 8 = opcode ∧ decode (encode i) = some i

/-- R123: SQRT, opcode 0x30, of a negative operand faults with `DOM`; of any other, zero included, it writes
`T.sqrtCore`. -/
def Obligations.SqrtIsChecked : Prop :=
  ∀ (s : State) (rd a : Reg),
    HasOpcode (.sqrt rd a) 0x30 ∧
    ((s.readReg a).msb = true → Faults (.sqrt rd a) s .dom) ∧
    ((s.readReg a).msb = false → Writes (.sqrt rd a) s rd (Config.T.sqrtCore (s.readReg a)))

/-- R124 (decision D23): SQRTR has no domain check, and where SQRT does not fault the two write the same. -/
def Obligations.RawSqrtHasNoCheck : Prop :=
  ∀ (s : State) (rd a : Reg),
    Writes (.sqrtr rd a) s rd (Config.T.sqrtCore (s.readReg a)) ∧
    (0 ≤ s.signedReg a → ∃ v, Writes (.sqrt rd a) s rd v ∧ Writes (.sqrtr rd a) s rd v)

/-- R122, the properties `P-SQRT-MONO` and `P-SQRT-SQ`, which log entry 6 takes into the record `T`: SQRTR is
monotonic in the unsigned magnitude, and the square of a square root is within one table-resolution unit. -/
def Obligations.SqrtListedProperties : Prop :=
  ∀ (s : State) (rd a b : Reg),
    ((s.readReg a).toNat ≤ (s.readReg b).toNat →
      ∃ v w, Writes (.sqrtr rd a) s rd v ∧ Writes (.sqrtr rd b) s rd w ∧ v.toNat ≤ w.toNat) ∧
    (0 ≤ s.signedReg a → ∃ v, Writes (.sqrt rd a) s rd v ∧
      |asr (v.toInt * v.toInt + half) 16 - s.signedReg a| ≤ Config.T.resUnit)

/-- R127, and the same test in R128 and R129: a logarithm of zero or of a negative value faults with `DOM`, and LOG2,
opcode 0x32, of any other writes `T.log2Core`. -/
def Obligations.LogarithmDomain : Prop :=
  ∀ (s : State) (rd a : Reg),
    HasOpcode (.log2 rd a) 0x32 ∧
    (s.readReg a = 0 ∨ (s.readReg a).msb = true →
      Faults (.log2 rd a) s .dom ∧ Faults (.ln rd a) s .dom ∧ Faults (.log10 rd a) s .dom) ∧
    (s.readReg a ≠ 0 → (s.readReg a).msb = false →
      Writes (.log2 rd a) s rd (Config.T.log2Core (s.readReg a)))

/-- R128, R129 (decision D24): for a positive operand LN and LOG10 divide LOG2 of it by the catalog entries `LOG2_E` and
`LOG2_10` in the 96-bit datapath of DIVH, and so write exactly what DIVH writes, in any state `t`, when its
registers hold that dividend and that divisor. -/
def Obligations.LnAndLog10DivideLog2 : Prop :=
  ∀ (s : State) (rd a : Reg), 0 < s.signedReg a →
    Writes (.ln rd a) s rd ((((Config.T.log2Core (s.readReg a)).signExtend 96 <<< 32).sdiv 0x171547653).setWidth 64) ∧
    Writes (.log10 rd a) s rd
      ((((Config.T.log2Core (s.readReg a)).signExtend 96 <<< 32).sdiv 0x35269E12F).setWidth 64) ∧
    ∀ (t : State) (l d : Reg), t.readReg l = Config.T.log2Core (s.readReg a) →
      (t.readReg d = 0x0000000171547653 → ∃ v, Writes (.ln rd a) s rd v ∧ Writes (.divh rd l d) t rd v) ∧
      (t.readReg d = 0x000000035269E12F → ∃ v, Writes (.log10 rd a) s rd v ∧ Writes (.divh rd l d) t rd v)

/-- R131: EXP, opcode 0x35, is zero below the low cut-off, else `MAX_RAW` above the high one, else `T.expCore`; an
argument equal to a cut-off is not saturated by it. -/
def Obligations.ExpSaturates : Prop :=
  ∀ (s : State) (rd a : Reg),
    HasOpcode (.exp rd a) 0x35 ∧
    Writes (.exp rd a) s rd
      (if s.signedReg a < Config.T.expLo.toInt then 0x0000000000000000
        else if s.signedReg a ≤ Config.T.expHi.toInt then Config.T.expCore (s.readReg a)
        else 0x7FFFFFFFFFFFFFFF)

/-- R134, R135, R137, R142: SIN, COS, TAN and ATAN, opcodes 0x36, 0x37, 0x38 and 0x3B, complete for every operand with
the function of `T`. -/
def Obligations.TrigonometricResults : Prop :=
  ∀ (s : State) (rd a : Reg),
    (HasOpcode (.sin rd a) 0x36 ∧ HasOpcode (.cos rd a) 0x37 ∧ HasOpcode (.tan rd a) 0x38 ∧
      HasOpcode (.atan rd a) 0x3B) ∧
    Writes (.sin rd a) s rd (Config.T.sin (s.readReg a)) ∧ Writes (.cos rd a) s rd (Config.T.cos (s.readReg a)) ∧
    Writes (.tan rd a) s rd (Config.T.tan (s.readReg a)) ∧ Writes (.atan rd a) s rd (Config.T.atan (s.readReg a))

/-- R134, the property `P-SINCOS-UNIT`, which log entries 6 and 7 take into the record `T`: of an angle reduced into
[0, 2π), the squares of SIN and COS taken with MUL and summed with ADD give 1 within an epsilon that is not known. -/
def Obligations.SinCosListedProperty : Prop :=
  ∀ (s : State) (p q a : Reg), p ≠ q → p ≠ a → 0 ≤ s.signedReg a →
    s.signedReg a * 65536 < (catalog twoPiIndex).toInt →
      ∃ t, execAll [.sin p a, .cos q a, .mul p p p, .mul q q q, .add p p q] s = .next t ∧
        |t.signedReg p - 65536| ≤ Config.T.sinCosEps

/-- R138, R139, R140: outside [-1, 1] ASIN and ACOS, opcodes 0x39 and 0x3A, write the sentinel `MIN_RAW` and answer
`OK`; inside, both ends included, they write the function of `T`. -/
def Obligations.ArcSentinel : Prop :=
  ∀ (s : State) (rd a : Reg),
    (HasOpcode (.asin rd a) 0x39 ∧ HasOpcode (.acos rd a) 0x3A) ∧
    (logical (s.readReg a) < -1 ∨ 1 < logical (s.readReg a) →
      Writes (.asin rd a) s rd 0x8000000000000000 ∧ Writes (.acos rd a) s rd 0x8000000000000000) ∧
    (-1 ≤ logical (s.readReg a) → logical (s.readReg a) ≤ 1 →
      Writes (.asin rd a) s rd (Config.T.asinCore (s.readReg a)) ∧
      Writes (.acos rd a) s rd (Config.T.acosCore (s.readReg a)))

/-- R143 (decision D30 for the operand order): ATAN2 of (0, 0) is 0, of (1, 0) the quarter turn, of (-1, 0) its
negative, and of every other pair `T.atan2Core`; no operand makes it fault. -/
def Obligations.Atan2Points : Prop :=
  ∀ (s : State) (rd y x : Reg),
    (s.readReg y = 0 → s.readReg x = 0 → Writes (.atan2 rd y x) s rd 0) ∧
    (s.readReg y = 0x10000 → s.readReg x = 0 → Writes (.atan2 rd y x) s rd Config.T.piHalf) ∧
    (s.readReg y = 0xFFFFFFFFFFFF0000 → s.readReg x = 0 → Writes (.atan2 rd y x) s rd (-Config.T.piHalf)) ∧
    (¬(s.readReg y = 0 ∧ s.readReg x = 0) →
      Writes (.atan2 rd y x) s rd (Config.T.atan2Core (s.readReg y) (s.readReg x)))

/-- The sketches R126, R136, R141: the sign of an argument is folded around the tangent and the arctangent, except at
zero and at `MIN_RAW`, whose negation wraps; and the logarithm of the raw value 2^k is k - 16 plus what the
table gives for an empty window. -/
def Obligations.SketchesFoldSignAndExponent : Prop :=
  ∀ (rom : Config.EngineRom) (v : Word),
    (v ≠ 0 → v ≠ minRaw → rom.atanSketch (-v) = -rom.atanSketch v ∧ rom.tanSketch (-v) = -rom.tanSketch v) ∧
    ∀ k : Nat, k < 63 → v = BitVec.ofNat 64 (2 ^ k) →
      rom.log2Sketch v = wrap64 (((k : Int) - 16) * 65536 + Config.tableEntry rom.log2Tbl 0 +
        rom.log2Terms ((rom.log2Neighbours 0).map (Config.tableEntry rom.log2Tbl)) 0)

/-- The sketches R122 to R141, for tables and maps whose indices stay in bounds as R42 says (a premise, which `T` meets
by log entry 6): each sketch of an operand it looks up is made from entries of its own tables. Every square root is
an entry shifted left by at most 31 places; the logarithm adds to an entry the terms of other entries; EXP between
its cut-offs multiplies by an entry; SIN and COS of one angle take the two halves of one entry, SIN folding the sign;
TAN and ATAN take an entry with the sign folded, ASIN and ACOS on [-1, 1] an entry as it stands. -/
def Obligations.SketchesReadTheirTables : Prop :=
  ∀ rom : Config.EngineRom, rom.InBounds → ∀ v : Word,
    (∃ e ∈ rom.sqrtTbl, ∃ k ≤ 31, rom.sqrtSketch v = rom.sqrtScale (shl e k)) ∧
    (0 < v.toInt → ∃ e ∈ rom.log2Tbl, ∃ es : List Int, (∀ d ∈ es, d ∈ rom.log2Tbl) ∧
      ∃ low < 2 ^ rom.log2FractionBits,
        rom.log2Sketch v = wrap64 (((v.toNat.log2 : Int) - 16) * 65536 + e + rom.log2Terms es low)) ∧
    (rom.expLo.toInt ≤ v.toInt → v.toInt ≤ rom.expHi.toInt → ∃ e ∈ rom.expTbl,
      rom.expSketch v =
        rom.expMultiply (rom.expPoly rom.expCoef (v.toInt - rom.expSplit v.toInt * 65536)) e) ∧
    (∃ e ∈ rom.sinCosTbl, ∃ cosine sine : BitVec 32, e = cosine ++ sine ∧
      rom.cosSketch v = rom.cosOf cosine sine ∧
      (rom.sinSketch v = rom.sinOf cosine sine ∨ rom.sinSketch v = -rom.sinOf cosine sine)) ∧
    (∃ e ∈ rom.tanTbl, rom.tanSketch v = if v.toInt < 0 then -wrap64 e else wrap64 e) ∧
    (-65536 ≤ v.toInt → v.toInt ≤ 65536 →
      (∃ e ∈ rom.asinTbl, rom.asinSketch v = wrap64 e) ∧ ∃ e ∈ rom.acosTbl, rom.acosSketch v = wrap64 e) ∧
    ∃ e ∈ (if v.toInt.natAbs ≤ rom.atanBand0 then rom.atanTbl0
        else if v.toInt.natAbs ≤ rom.atanBand1 then rom.atanTbl1 else rom.atanTbl2),
      rom.atanSketch v = if v.toInt < 0 then -wrap64 e else wrap64 e

/-! ### High-precision divisor -/

/-- R162, R163 (decision D19): LDHC writes the entry of the catalog that bits 2:0 of its immediate select, and no
entry is zero. -/
def Obligations.CatalogLoads : Prop :=
  ∀ (s : State) (rd : Reg) (imm12 : BitVec 12),
    Writes (.ldhc rd imm12) s rd
      ([ 13493037705, 26986075409, 11674931555, 6196328019, 14267572527, 74961321, 246083499208, 6746518852 ].getD
        (imm12.toNat % 8) 0) ∧
    ¬Writes (.ldhc rd imm12) s rd 0

/-- R164, R165 (decision D18): for a non-zero divisor DIVH is a 96-bit signed division of the dividend shifted left by
32, its low 64 bits kept, and MODH an 80-bit signed remainder of the dividend shifted left by 16, shifted right
arithmetically by 16. -/
def Obligations.HighPrecisionDatapath : Prop :=
  ∀ (s : State) (rd a h : Reg), s.readReg h ≠ 0 →
    Writes (.divh rd a h) s rd
      ((((s.readReg a).signExtend 96 <<< 32).sdiv ((s.readReg h).signExtend 96)).setWidth 64) ∧
    Writes (.modh rd a h) s rd
      (((((s.readReg a).signExtend 80 <<< 16).srem ((s.readReg h).signExtend 80)).sshiftRight 16).setWidth 64)

/-- R165, R166 (decision D18): MODH's result is at most one ulp beyond the modulus; for a non-negative dividend and a
positive divisor, when the quotient fits, DIVH is the exact quotient of the logical values to less than one ulp,
and never above it. -/
def Obligations.HighPrecisionBounds : Prop :=
  ∀ (s : State) (rd a h : Reg), s.readReg h ≠ 0 →
    (∃ v, Writes (.modh rd a h) s rd v ∧ |v.toInt| * 65536 ≤ |s.signedReg h| + 65536) ∧
    (0 ≤ s.signedReg a → 0 < s.signedReg h → s.signedReg a * 2 ^ 32 < s.signedReg h * 2 ^ 63 →
      ∃ v, Writes (.divh rd a h) s rd v ∧
        logical v ≤ logical (s.readReg a) / logicalHP (s.readReg h) ∧
        logical (s.readReg a) / logicalHP (s.readReg h) < logical v + 1 / 65536)

/-! ### Conversion -/

/-- The value of an IEEE bit pattern with the given field widths, which its exponent field makes finite. -/
def Sys2Proof.ieeeValue (exponentBits fractionBits : Nat) (bias : Int) (pattern : Nat) : ℚ :=
  let sign := pattern / 2 ^ (exponentBits + fractionBits) % 2
  let exponent := pattern / 2 ^ fractionBits % 2 ^ exponentBits
  let fraction := pattern % 2 ^ fractionBits
  (if sign = 1 then -1 else 1) *
    (if exponent = 0 then (fraction : ℚ) * (2 : ℚ) ^ (1 - bias - (fractionBits : ℤ))
      else ((2 : ℚ) ^ fractionBits + fraction) * (2 : ℚ) ^ ((exponent : ℤ) - bias - (fractionBits : ℤ)))

/-- `v` is the rational `q` in units of 2^-16, truncated toward zero. -/
def Sys2Proof.truncatedRaw (q : ℚ) (v : Word) : Prop :=
  v.toInt = if q < 0 then -⌊-q * 65536⌋ else ⌊q * 65536⌋

/-- R175, R176, R177 (decision D20 for the truncation): F2X.D and F2X.S give the true value truncated to the 2^-16
grid for every finite pattern of magnitude below 2^47, and for -2^47; the high half of F2X.S's operand is
ignored. -/
def Obligations.IeeeConversionTruncates : Prop :=
  ∀ (s : State) (rd a : Reg),
    ((s.readReg a).toNat / 2 ^ 52 % 2048 ≠ 2047 →
      |ieeeValue 11 52 1023 (s.readReg a).toNat| < 2 ^ 47 ∨ ieeeValue 11 52 1023 (s.readReg a).toNat = -2 ^ 47 →
        ∃ v, Writes (.f2xd rd a) s rd v ∧ truncatedRaw (ieeeValue 11 52 1023 (s.readReg a).toNat) v) ∧
    ((s.readReg a).toNat / 2 ^ 23 % 256 ≠ 255 →
      |ieeeValue 8 23 127 ((s.readReg a).toNat % 2 ^ 32)| < 2 ^ 47 ∨
        ieeeValue 8 23 127 ((s.readReg a).toNat % 2 ^ 32) = -2 ^ 47 →
        ∃ v, Writes (.f2xs rd a) s rd v ∧ truncatedRaw (ieeeValue 8 23 127 ((s.readReg a).toNat % 2 ^ 32)) v)

/-- R178 (decision D20): zeros, subnormals, infinities, NaNs and every pattern whose set bits are all shifted past
bit 63 give zero; and from biased exponent 1059 (134) on, the low 64 bits of the exact magnitude are kept, negated
when the sign bit is set. -/
def Obligations.IeeeConversionEdges : Prop :=
  ∀ (s : State) (rd a : Reg) (e f : Nat),
    (e = (s.readReg a).toNat / 2 ^ 52 % 2048 → f = (s.readReg a).toNat % 2 ^ 52 →
      (e = 0 ∨ 1123 ≤ e → Writes (.f2xd rd a) s rd 0) ∧
      (1059 ≤ e → Writes (.f2xd rd a) s rd (if (s.readReg a).getLsbD 63
        then -BitVec.ofNat 64 ((2 ^ 52 + f) * 2 ^ (e - 1059)) else BitVec.ofNat 64 ((2 ^ 52 + f) * 2 ^ (e - 1059))))) ∧
    (e = (s.readReg a).toNat / 2 ^ 23 % 256 → f = (s.readReg a).toNat % 2 ^ 23 →
      (e = 0 ∨ 198 ≤ e → Writes (.f2xs rd a) s rd 0) ∧
      (134 ≤ e → Writes (.f2xs rd a) s rd (if (s.readReg a).getLsbD 31
        then -BitVec.ofNat 64 ((2 ^ 23 + f) * 2 ^ (e - 134)) else BitVec.ofNat 64 ((2 ^ 23 + f) * 2 ^ (e - 134)))))

/-- R179, R180 (decision D21): I2X is the shift left by 16 and X2I the arithmetic shift right by 16, the floor of the
logical value; X2I undoes I2X for -2^47 <= n < 2^47. -/
def Obligations.IntegerConversion : Prop :=
  ∀ (s : State) (rd a : Reg),
    Writes (.i2x rd a) s rd (s.readReg a <<< 16) ∧
    (∃ v, Writes (.x2i rd a) s rd v ∧ v = (s.readReg a).sshiftRight 16 ∧ v.toInt = ⌊logical (s.readReg a)⌋) ∧
    (-2 ^ 47 ≤ s.signedReg a → s.signedReg a < 2 ^ 47 →
      ∃ t, exec (.i2x rd a) s = .next t ∧ Writes (.x2i rd rd) t rd (s.readReg a))

/-! ### The whole machine -/

/-- R23, R24, R46, R62, R228: every command, in every state, gives exactly one response and leaves unchanged every
general register but its destination, the port besides the response, and what the host does next; a command that
does not answer `OK` writes no register. -/
def Obligations.EveryCommandsFrame : Prop :=
  ∀ (i : Instr) (s : State), ∃ (t : State) (r : Response), exec i s = .next t ∧
    (∀ q, i.dest ≠ some q → t.readReg q = s.readReg q) ∧ Answered s t r.code r.data ∧
    (r.code ≠ .ok → t.x = s.x ∧ r.data = 0)

/-- R28 (decision D5): a flag goes up only by a fault of its kind, whose response is then at the port, and goes down
only by CLSR or a reset; so for every command, and for every step, where the command is the one the step answers. -/
def Obligations.FlagsMoveOnlyByFaultClsrReset : Prop :=
  (∀ (i : Instr) (s t : State) (c : FaultCause), exec i s = .next t → t.fsr.flag c ≠ s.fsr.flag c →
    (i = .clsr ∧ t.fsr.flag c = false) ∨ (i ≠ .clsr ∧ t.fsr.flag c = true ∧ t.rsp = some ⟨c.code, 0⟩)) ∧
  ∀ (s t : State) (c : FaultCause), step s = .next t →
    (t.fsr.flag c = true → s.fsr.flag c = false →
      t.rsp = some ⟨c.code, 0⟩ ∧ ∃ w, answeredCommand s = some w ∧ decode w ≠ some .clsr) ∧
    (t.fsr.flag c = false → s.fsr.flag c = true →
      (ResetsNext s ∧ t.responses = []) ∨
        ∃ w, answeredCommand s = some w ∧ decode w = some .clsr ∧ t.rsp = some ⟨.ok, 0⟩)

/-- The fault a legal command meets, as the table of R201 has it. -/
def Sys2Proof.faultMet (i : Instr) (s : State) : Option FaultCause :=
  match i with
  | .div _ _ b | .mod _ _ b | .divh _ _ b | .modh _ _ b => if s.readReg b = 0 then some .dz else none
  | .sqrt _ a => if (s.readReg a).msb then some .dom else none
  | .log2 _ a | .ln _ a | .log10 _ a => if s.readReg a = 0 ∨ (s.readReg a).msb then some .dom else none
  | _ => none

/-- R201: exactly which commands fault, under which condition, with which code and flag; no other command raises any
fault, and no command raises two. -/
def Obligations.FaultsExactlyAsTabulated : Prop :=
  ∀ (i : Instr) (s : State) (c : FaultCause), Faults i s c ↔ faultMet i s = some c

/-- R202, R205: the commands that never fault answer `OK` and leave `FSR` alone, CLSR apart, for any operand values. -/
def Obligations.NeverFaultingCommands : Prop :=
  ∀ (i : Instr) (s : State),
    (∀ rd a b, i ≠ .div rd a b ∧ i ≠ .mod rd a b ∧ i ≠ .divh rd a b ∧ i ≠ .modh rd a b) →
    (∀ rd a, i ≠ .sqrt rd a ∧ i ≠ .log2 rd a ∧ i ≠ .ln rd a ∧ i ≠ .log10 rd a) →
      ∃ t d, exec i s = .next t ∧ Answered s t .ok d ∧ (i ≠ .clsr → t.fsr = s.fsr)

/-- R204 (decision D25): faults are counted nowhere: the same fault met a second time changes only the responses. -/
def Obligations.RepeatedFaultLeavesOneBit : Prop :=
  ∀ (i : Instr) (s t : State) (c : FaultCause), faultMet i s = some c → exec i s = .next t →
    ∃ u, exec i t = .next u ∧ u.x = t.x ∧ u.fsr = t.fsr ∧ u.rsp = t.rsp ∧
      u.responses = s.responses ++ [⟨c.code, 0⟩, ⟨c.code, 0⟩]

/-- R30, R120: what a command answers and writes is a function of the registers it reads (and of `FSR` for RDSR)
and of nothing else: two states that agree on those give the same. -/
def Obligations.ResultDependsOnSourcesOnly : Prop :=
  ∀ (i : Instr) (s u : State), (∀ r ∈ i.sources, s.readReg r = u.readReg r) → (i = .rdsr → s.fsr = u.fsr) →
    ∃ t v, exec i s = .next t ∧ exec i u = .next v ∧ t.rsp = v.rsp ∧
      ∀ rd, i.dest = some rd → t.rsp = some ⟨.ok, 0⟩ → t.readReg rd = v.readReg rd

/-- R78 (decision D16): CLAMP's expansion clamps (giving xHI when xLO > xHI) and touches nothing but its destination,
which must not be xHI; SQR's is MUL of the register with itself; LDX's loads the integer, LDONE's logical 1. -/
def Obligations.PseudoInstructions : Prop :=
  ∀ (s : State) (rd rs lo hi : Reg),
    (rd ≠ hi → ∃ t, execAll (Pseudo.clamp rd rs lo hi).expand s = .next t ∧
      (t.readReg rd).toInt = min (max (s.signedReg rs) (s.signedReg lo)) (s.signedReg hi) ∧
      (∀ r, r ≠ rd → t.readReg r = s.readReg r) ∧ t.fsr = s.fsr) ∧
    execAll (Pseudo.sqr rd rs).expand s = exec (.mul rd rs rs) s ∧
    (∀ n : Int, -2 ^ 47 ≤ n → n < 2 ^ 47 → ∃ t, execAll (Pseudo.ldx rd n).expand s = .next t ∧
      logical (t.readReg rd) = n) ∧
    ∃ t, execAll (Pseudo.ldone rd).expand s = .next t ∧ logical (t.readReg rd) = 1
end

