-- ==== Sys2Proof/Laws/State.lean ====
section
/-! SUPPORT. One lemma per field of the state for each shared operation, so that no proof unfolds an update, and
what reading a register gives after each. -/

namespace Sys2Proof.Machine.State

variable (s : State) (r q : Reg) (v d : Word) (c : RspCode) (f : FaultCause)

@[simp] theorem writeReg_fsr : (s.writeReg r v).fsr = s.fsr := rfl
@[simp] theorem writeReg_inFlight : (s.writeReg r v).inFlight = s.inFlight := rfl
@[simp] theorem writeReg_rsp : (s.writeReg r v).rsp = s.rsp := rfl
@[simp] theorem writeReg_responses : (s.writeReg r v).responses = s.responses := rfl
@[simp] theorem writeReg_host : (s.writeReg r v).host = s.host := rfl

@[simp] theorem respond_x : (s.respond c d).x = s.x := rfl
@[simp] theorem respond_fsr : (s.respond c d).fsr = s.fsr := rfl
@[simp] theorem respond_inFlight : (s.respond c d).inFlight = s.inFlight := rfl
@[simp] theorem respond_rsp : (s.respond c d).rsp = some ⟨c, d⟩ := rfl
@[simp] theorem respond_responses : (s.respond c d).responses = s.responses ++ [⟨c, d⟩] := rfl
@[simp] theorem respond_host : (s.respond c d).host = s.host := rfl

@[simp] theorem complete_x : (s.complete r v).x = (s.writeReg r v).x := rfl
@[simp] theorem complete_fsr : (s.complete r v).fsr = s.fsr := rfl
@[simp] theorem complete_inFlight : (s.complete r v).inFlight = s.inFlight := rfl
@[simp] theorem complete_rsp : (s.complete r v).rsp = some ⟨.ok, 0⟩ := rfl
@[simp] theorem complete_responses : (s.complete r v).responses = s.responses ++ [⟨.ok, 0⟩] := rfl
@[simp] theorem complete_host : (s.complete r v).host = s.host := rfl

@[simp] theorem raise_x : (s.raise f).x = s.x := rfl
@[simp] theorem raise_fsr : (s.raise f).fsr = s.fsr.raise f := rfl
@[simp] theorem raise_inFlight : (s.raise f).inFlight = s.inFlight := rfl
@[simp] theorem raise_rsp : (s.raise f).rsp = some ⟨f.code, 0⟩ := rfl
@[simp] theorem raise_responses : (s.raise f).responses = s.responses ++ [⟨f.code, 0⟩] := rfl
@[simp] theorem raise_host : (s.raise f).host = s.host := rfl

@[simp] theorem clearFsr_x : s.clearFsr.x = s.x := rfl
@[simp] theorem clearFsr_fsr : s.clearFsr.fsr = ⟨false, false, false⟩ := rfl
@[simp] theorem clearFsr_inFlight : s.clearFsr.inFlight = s.inFlight := rfl
@[simp] theorem clearFsr_rsp : s.clearFsr.rsp = s.rsp := rfl
@[simp] theorem clearFsr_responses : s.clearFsr.responses = s.responses := rfl
@[simp] theorem clearFsr_host : s.clearFsr.host = s.host := rfl

@[simp] theorem clearPulse_x : s.clearPulse.x = s.x := rfl
@[simp] theorem clearPulse_fsr : s.clearPulse.fsr = s.fsr := rfl
@[simp] theorem clearPulse_inFlight : s.clearPulse.inFlight = s.inFlight := rfl
@[simp] theorem clearPulse_rsp : s.clearPulse.rsp = none := rfl
@[simp] theorem clearPulse_responses : s.clearPulse.responses = s.responses := rfl
@[simp] theorem clearPulse_host : s.clearPulse.host = s.host := rfl

@[simp] theorem applyReset_x : s.applyReset.x = Vector.replicate 16 0 := rfl
@[simp] theorem applyReset_fsr : s.applyReset.fsr = ⟨false, false, false⟩ := rfl
@[simp] theorem applyReset_inFlight : s.applyReset.inFlight = none := rfl
@[simp] theorem applyReset_rsp : s.applyReset.rsp = none := rfl
@[simp] theorem applyReset_responses : s.applyReset.responses = [] := rfl
@[simp] theorem applyReset_host : s.applyReset.host = s.host := rfl

/-- Read after write. -/
theorem readReg_writeReg : (s.writeReg r v).readReg q = if q = r then v else s.readReg q := by
  simp [readReg, writeReg, Vector.getElem_set, Fin.ext_iff, eq_comm]

@[simp] theorem readReg_writeReg_self : (s.writeReg r v).readReg r = v := by simp [readReg_writeReg]

theorem readReg_writeReg_ne (h : q ≠ r) : (s.writeReg r v).readReg q = s.readReg q := by
  simp [readReg_writeReg, h]

/-- Reading depends on the register file alone. -/
theorem readReg_congr {s t : State} (h : t.x = s.x) (q : Reg) : t.readReg q = s.readReg q := by
  simp [readReg, h]

@[simp] theorem readReg_respond : (s.respond c d).readReg q = s.readReg q := rfl
@[simp] theorem readReg_raise : (s.raise f).readReg q = s.readReg q := rfl
@[simp] theorem readReg_clearFsr : s.clearFsr.readReg q = s.readReg q := rfl
@[simp] theorem readReg_clearPulse : s.clearPulse.readReg q = s.readReg q := rfl

theorem readReg_complete : (s.complete r v).readReg q = if q = r then v else s.readReg q :=
  readReg_writeReg s r q v

@[simp] theorem readReg_complete_self : (s.complete r v).readReg r = v := by simp [readReg_complete]

theorem readReg_complete_ne (h : q ≠ r) : (s.complete r v).readReg q = s.readReg q := by
  simp [readReg_complete, h]

@[simp] theorem readReg_applyReset : s.applyReset.readReg q = 0 := by simp [readReg]

/-- The register file is its sixteen values. -/
theorem x_ext {s t : State} (h : ∀ q, t.readReg q = s.readReg q) : t.x = s.x := by
  apply Vector.ext
  intro i hi
  exact h ⟨i, hi⟩

end Sys2Proof.Machine.State
end

