-- ==== Sys2Proof/Laws/Flags.lean ====
section
/-! SUPPORT. What the operations over `FSR` do to each flag (R27, R28). -/

namespace Sys2Proof.Machine

@[simp] theorem Fsr.flag_raise_self (f : Fsr) (c : FaultCause) : (f.raise c).flag c = true := by
  cases c <;> rfl

theorem Fsr.flag_raise_ne (f : Fsr) {c d : FaultCause} (h : d ≠ c) : (f.raise c).flag d = f.flag d := by
  cases c <;> cases d <;> first | rfl | exact absurd rfl h

@[simp] theorem Fsr.flag_clear (c : FaultCause) : (⟨false, false, false⟩ : Fsr).flag c = false := by
  cases c <;> rfl

theorem Fsr.ext_flag {f g : Fsr} (h : ∀ c, f.flag c = g.flag c) : f = g := by
  obtain ⟨a, b, c⟩ := f
  have h1 := h .dz
  have h2 := h .dom
  have h3 := h .ill
  simp only [Fsr.flag] at h1 h2 h3
  simp [h1, h2, h3]

@[simp] theorem FaultCause.code_ne_ok (c : FaultCause) : c.code ≠ .ok := by cases c <;> decide

theorem FaultCause.code_injective {c d : FaultCause} (h : c.code = d.code) : c = d := by
  cases c <;> cases d <;> first | rfl | exact absurd h (by decide)

/-- `FSR` as read, bit by bit. -/
theorem Fsr.toWord_getLsbD (f : Fsr) (k : Nat) : f.toWord.getLsbD k =
    (match k with | 0 => f.dz | 1 => f.dom | 2 => f.ill | _ => false) := by
  obtain ⟨dz, dom, ill⟩ := f
  rcases k with _ | _ | _ | k
  · revert dz dom ill; decide
  · revert dz dom ill; decide
  · revert dz dom ill; decide
  · simp only [Fsr.toWord, BitVec.getLsbD_setWidth]
    rw [BitVec.getLsbD_of_ge _ (k + 1 + 1 + 1) (by omega)]
    simp

@[simp] theorem Fsr.toWord_clear : (⟨false, false, false⟩ : Fsr).toWord = 0 := by decide

end Sys2Proof.Machine
end

