-- ==== Sys2Proof/Laws/Numeric.lean ====
section
/-! SUPPORT. The primitives of R16: wrapping integers against 64-bit vectors, division in its rounding. -/

namespace Sys2Proof.Machine

@[simp] theorem toInt_wrap64 (n : Int) : (wrap64 n).toInt = n.bmod (2 ^ 64) := BitVec.toInt_ofInt n

/-- Wrapping is exact on the signed 64-bit range. -/
theorem toInt_wrap64_of_fits {n : Int} (h1 : -2 ^ 63 ≤ n) (h2 : n < 2 ^ 63) : (wrap64 n).toInt = n := by
  rw [toInt_wrap64]
  apply Int.bmod_eq_of_le <;> norm_num <;> omega

@[simp] theorem wrap64_toInt (v : Word) : wrap64 v.toInt = v := BitVec.ofInt_toInt

theorem wrap64_toNat (v : Word) : wrap64 (v.toNat : Int) = v := by
  rw [wrap64, BitVec.ofInt_natCast, BitVec.ofNat_toNat, BitVec.setWidth_eq]

theorem wrap64_add (a b : Int) : wrap64 (a + b) = wrap64 a + wrap64 b := BitVec.ofInt_add a b
theorem wrap64_mul (a b : Int) : wrap64 (a * b) = wrap64 a * wrap64 b := BitVec.ofInt_mul a b
theorem wrap64_neg (a : Int) : wrap64 (-a) = -wrap64 a := BitVec.ofInt_neg

theorem wrap64_sub (a b : Int) : wrap64 (a - b) = wrap64 a - wrap64 b := by
  rw [Int.sub_eq_add_neg, wrap64_add, wrap64_neg, BitVec.sub_eq_add_neg]

/-- Two integers wrap to the same word exactly when they agree modulo 2^64. -/
theorem wrap64_eq_iff (a b : Int) : wrap64 a = wrap64 b ↔ a % 2 ^ 64 = b % 2 ^ 64 := by
  rw [← BitVec.toInt_inj, toInt_wrap64, toInt_wrap64]
  simp only [Int.bmod]
  norm_num
  omega

/-- Saturation as an integer. -/
theorem toInt_sat64 (n : Int) : (sat64 n).toInt = max (-2 ^ 63) (min (2 ^ 63 - 1) n) := by
  apply toInt_wrap64_of_fits <;> omega

theorem quotient_towardZero (n d : Int) : quotient .towardZero n d = n.tdiv d := rfl

theorem remainder_towardZero (n d : Int) : remainder .towardZero n d = n.tmod d := by
  rw [remainder, quotient_towardZero, Int.tmod_def]

/-- The shift to the right is the floor of the division (R16). -/
theorem asr_bounds (n : Int) (k : Nat) : asr n k * 2 ^ k ≤ n ∧ n < (asr n k + 1) * 2 ^ k := by
  have hpos : (0 : Int) < 2 ^ k := by positivity
  have h1 := Int.mul_ediv_add_emod n (2 ^ k)
  have h2 := Int.emod_nonneg n hpos.ne'
  have h3 := Int.emod_lt_of_pos n hpos
  constructor <;> unfold asr <;> nlinarith

/-- The sign bit. -/
theorem msb_iff (v : Word) : v.msb = true ↔ v.toInt < 0 := by rw [BitVec.msb_eq_toInt, decide_eq_true_eq]

theorem toInt_eq_zero_iff (v : Word) : v.toInt = 0 ↔ v = 0 :=
  ⟨fun h => BitVec.eq_of_toInt_eq (by simpa using h), fun h => by rw [h]; rfl⟩

/-- The low 64 bits of a wider datapath are the wrapped value of what it holds. -/
theorem setWidth_eq_wrap64 {w : Nat} (v : BitVec w) (h : 64 ≤ w) : v.setWidth 64 = wrap64 v.toInt := by
  apply BitVec.eq_of_toInt_eq
  rw [toInt_wrap64, BitVec.toInt_setWidth, BitVec.toInt_eq_toNat_bmod, Int.bmod_bmod_of_dvd]
  exact_mod_cast Nat.pow_dvd_pow 2 h

/-- The 64-bit shift left by 16. -/
theorem wrap64_shl16 (v : Word) : wrap64 (shl v.toInt 16) = v <<< 16 := by
  rw [shl, wrap64_mul, wrap64_toInt, BitVec.shiftLeft_eq_mul_twoPow]
  congr 1

/-- Division toward zero in magnitudes and signs. -/
theorem tdiv_laws (n d : Int) (hd : d ≠ 0) : |n.tdiv d| ≤ |n| ∧ |n.tdiv d * d| ≤ |n| ∧
    |n| < |n.tdiv d * d| + |d| ∧ 0 ≤ n.tdiv d * (n * d) := by
  have hq : |n.tdiv d| = |n| / |d| := by
    rw [← Int.natCast_natAbs, Int.natAbs_tdiv, ← Int.natCast_natAbs, ← Int.natCast_natAbs]
    exact Int.natCast_div _ _
  have hpos : 0 < |d| := abs_pos.mpr hd
  rw [abs_mul, hq]
  refine ⟨Int.ediv_le_self _ (abs_nonneg _), Int.ediv_mul_le _ hpos.ne', ?_, ?_⟩
  · have h1 := Int.mul_ediv_add_emod |n| |d|
    have h2 := Int.emod_lt_of_pos |n| hpos
    rw [mul_comm] at h1
    linarith
  · rcases le_total 0 n with hn | hn <;> rcases lt_or_gt_of_ne hd with hd | hd
    · exact mul_nonneg_of_nonpos_of_nonpos (Int.tdiv_nonpos_of_nonneg_of_nonpos hn hd.le)
        (mul_nonpos_of_nonneg_of_nonpos hn hd.le)
    · exact mul_nonneg (Int.tdiv_nonneg hn hd.le) (mul_nonneg hn hd.le)
    · exact mul_nonneg (Int.tdiv_nonneg_of_nonpos_of_nonpos hn hd.le) (mul_nonneg_of_nonpos_of_nonpos hn hd.le)
    · have h := Int.tdiv_nonneg (a := -n) (by omega) hd.le
      rw [Int.neg_tdiv] at h
      exact mul_nonneg_of_nonpos_of_nonpos (by omega) (mul_nonpos_of_nonpos_of_nonneg hn hd.le)

end Sys2Proof.Machine
end

