-- ==== Sys2Proof/Laws/Commands.lean ====
section
/-! SUPPORT. How a command whose outcome is known completes, answers or faults in the terms of `Safety.lean`, and the
outcome of the commands that test an operand. -/

namespace Sys2Proof.Machine

variable {i : Instr} {s : State}

/-- A command that completes writes. -/
theorem writes_of_complete {rd : Reg} {v w : Word} (h : exec i s = .next (s.complete rd v)) (hv : v = w) :
    Writes i s rd w := by
  subst hv
  exact ⟨_, h, by simp, fun r hr => State.readReg_complete_ne _ _ _ _ hr, rfl, rfl, rfl, rfl, rfl⟩

/-- A command that answers reads. -/
theorem reads_of_respond {d : Word} (h : exec i s = .next (s.respond .ok d)) : Reads i s d :=
  ⟨_, h, rfl, rfl, rfl, rfl, rfl, rfl⟩

/-- A command that raises faults. -/
theorem faults_of_raise {c : FaultCause} (h : exec i s = .next (s.raise c)) : Faults i s c :=
  ⟨_, h, rfl, by simp, fun _ hd => Fsr.flag_raise_ne _ hd, rfl, rfl, rfl, rfl⟩

/-- A command writes one value. -/
theorem writes_injective {rd : Reg} {v w : Word} (h : Writes i s rd v) (h' : Writes i s rd w) : v = w := by
  obtain ⟨t, ht, hv, _⟩ := h
  obtain ⟨u, hu, hw, _⟩ := h'
  rw [ht] at hu
  cases hu
  exact hv.symm.trans hw

/-- The divisor tests look at the register. -/
theorem signedReg_eq_zero_iff (s : State) (r : Reg) : s.signedReg r = 0 ↔ s.readReg r = 0 := toInt_eq_zero_iff _

theorem exec_div_of_ne (rd a b : Reg) (h : s.readReg b ≠ 0) : exec (.div rd a b) s =
    .next (s.complete rd (divValue divWide divRound (s.signedReg a) (s.signedReg b))) :=
  congrArg Host.Outcome.next (if_neg (by rwa [signedReg_eq_zero_iff]))

theorem exec_mod_of_ne (rd a b : Reg) (h : s.readReg b ≠ 0) : exec (.mod rd a b) s =
    .next (s.complete rd (modValue divRound (s.signedReg a) (s.signedReg b))) :=
  congrArg Host.Outcome.next (if_neg (by rwa [signedReg_eq_zero_iff]))

theorem exec_divh_of_ne (rd a b : Reg) (h : s.readReg b ≠ 0) : exec (.divh rd a b) s =
    .next (s.complete rd (divhValue (s.signedReg a) (s.signedReg b))) :=
  congrArg Host.Outcome.next (if_neg (by rwa [signedReg_eq_zero_iff]))

theorem exec_modh_of_ne (rd a b : Reg) (h : s.readReg b ≠ 0) : exec (.modh rd a b) s =
    .next (s.complete rd (modhValue (s.signedReg a) (s.signedReg b))) :=
  congrArg Host.Outcome.next (if_neg (by rwa [signedReg_eq_zero_iff]))

/-- DIV's dividend as it is built: shifted in 64 bits. -/
theorem shiftedDividend_divWide (v : Word) : shiftedDividend divWide v.toInt = (v <<< 16).toInt := by
  rw [← wrap64_shl16]
  rfl

theorem outcomeWord_decide (p : Prop) [Decidable p] : outcomeWord (decide p) = if p then 1 else 0 := by
  by_cases h : p <;> simp [outcomeWord, h]

end Sys2Proof.Machine
end

