-- ==== Sys2Proof/Laws/Decode.lean ====
section
/-! SUPPORT. The fields of a packed word, and what a row of the opcode table matches. -/

namespace Sys2Proof

section Pack
variable (opcode : BitVec 8) (rd rs1 rs2 : Reg) (imm12 : BitVec 12)

/-- The packed word as a number: no field overflows into the next. -/
theorem packWord_toNat : (packWord opcode rd rs1 rs2 imm12).toNat =
    opcode.toNat * 16777216 + rd.val * 1048576 + rs1.val * 65536 + rs2.val * 4096 + imm12.toNat := by
  have h1 : opcode.toNat < 256 := opcode.isLt
  have h2 : imm12.toNat < 4096 := imm12.isLt
  rw [packWord, BitVec.toNat_ofNat, Nat.mod_eq_of_lt] <;> norm_num
  omega

@[simp] theorem opcodeField_packWord : opcodeField (packWord opcode rd rs1 rs2 imm12) = opcode := by
  apply BitVec.eq_of_toNat_eq
  have h1 : opcode.toNat < 256 := opcode.isLt
  have h2 : imm12.toNat < 4096 := imm12.isLt
  rw [opcodeField, BitVec.extractLsb'_toNat, packWord_toNat, Nat.shiftRight_eq_div_pow]
  omega

@[simp] theorem rdField_packWord : rdField (packWord opcode rd rs1 rs2 imm12) = rd := by
  apply Fin.ext
  have h1 : opcode.toNat < 256 := opcode.isLt
  have h2 : imm12.toNat < 4096 := imm12.isLt
  rw [rdField, BitVec.val_toFin, BitVec.extractLsb'_toNat, packWord_toNat, Nat.shiftRight_eq_div_pow]
  omega

@[simp] theorem rs1Field_packWord : rs1Field (packWord opcode rd rs1 rs2 imm12) = rs1 := by
  apply Fin.ext
  have h1 : opcode.toNat < 256 := opcode.isLt
  have h2 : imm12.toNat < 4096 := imm12.isLt
  rw [rs1Field, BitVec.val_toFin, BitVec.extractLsb'_toNat, packWord_toNat, Nat.shiftRight_eq_div_pow]
  omega

@[simp] theorem rs2Field_packWord : rs2Field (packWord opcode rd rs1 rs2 imm12) = rs2 := by
  apply Fin.ext
  have h1 : opcode.toNat < 256 := opcode.isLt
  have h2 : imm12.toNat < 4096 := imm12.isLt
  rw [rs2Field, BitVec.val_toFin, BitVec.extractLsb'_toNat, packWord_toNat, Nat.shiftRight_eq_div_pow]
  norm_num
  omega

@[simp] theorem immField_packWord : immField (packWord opcode rd rs1 rs2 imm12) = imm12 := by
  apply BitVec.eq_of_toNat_eq
  have h1 : opcode.toNat < 256 := opcode.isLt
  have h2 : imm12.toNat < 4096 := imm12.isLt
  rw [immField, BitVec.extractLsb'_toNat, packWord_toNat]
  norm_num
  omega

end Pack

/-- A word is its five fields (R63). -/
theorem packWord_fields (w : CmdWord) :
    packWord (opcodeField w) (rdField w) (rs1Field w) (rs2Field w) (immField w) = w := by
  apply BitVec.eq_of_toNat_eq
  have := w.isLt
  rw [packWord_toNat]
  simp [opcodeField, rdField, rs1Field, rs2Field, immField, Nat.shiftRight_eq_div_pow]
  omega

/-- Concatenations are equal when both parts are. -/
theorem append_eq_append {m n : Nat} (a c : BitVec m) (b d : BitVec n) :
    a ++ b = c ++ d ↔ a = c ∧ b = d := by
  constructor
  · intro h
    have h1 := congrArg (BitVec.extractLsb' n m) h
    have h2 := congrArg (BitVec.extractLsb' 0 n) h
    simp only [BitVec.extractLsb'_append_eq_left, BitVec.extractLsb'_append_eq_right] at h1 h2
    exact ⟨h1, h2⟩
  · rintro ⟨rfl, rfl⟩
    rfl

/-- A word is the concatenation of its fields, `imm12` cut at bit 3. -/
theorem word_eq_append (w : CmdWord) :
    w = w.extractLsb' 24 8 ++ w.extractLsb' 20 4 ++ w.extractLsb' 16 4 ++ w.extractLsb' 12 4 ++
      w.extractLsb' 3 9 ++ w.extractLsb' 0 3 := by
  rw [BitVec.extractLsb'_append_extractLsb'_eq_extractLsb' (by rfl),
    BitVec.extractLsb'_append_extractLsb'_eq_extractLsb' (by rfl),
    BitVec.extractLsb'_append_extractLsb'_eq_extractLsb' (by rfl),
    BitVec.extractLsb'_append_extractLsb'_eq_extractLsb' (by rfl),
    BitVec.extractLsb'_append_extractLsb'_eq_extractLsb' (by rfl)]
  exact BitVec.extractLsb'_eq_self.symm

/-- The mask of a format, field by field. -/
theorem Format.mask_eq_append (f : Format) : f.mask =
    f.mask.extractLsb' 24 8 ++ f.mask.extractLsb' 20 4 ++ f.mask.extractLsb' 16 4 ++ f.mask.extractLsb' 12 4 ++
      f.mask.extractLsb' 3 9 ++ f.mask.extractLsb' 0 3 := word_eq_append _

/-- Which fields a format leaves unused and requires to be zero (R64). -/
def Format.unusedZero (f : Format) (w : CmdWord) : Prop :=
  match f with
  | .Z => rdField w = 0 ∧ rs1Field w = 0 ∧ rs2Field w = 0 ∧ immField w = 0
  | .D => rs1Field w = 0 ∧ rs2Field w = 0 ∧ immField w = 0
  | .S => rdField w = 0 ∧ rs2Field w = 0 ∧ immField w = 0
  | .R2 => rs2Field w = 0 ∧ immField w = 0
  | .R3 => immField w = 0
  | .K => rs1Field w = 0 ∧ rs2Field w = 0 ∧ (immField w).extractLsb' 3 9 = 0

theorem toFin_eq_zero_iff (v : BitVec 4) : (v.toFin : Reg) = 0 ↔ v = 0 := by
  revert v
  decide

theorem rdField_eq_zero_iff (w : CmdWord) : rdField w = 0 ↔ w.extractLsb' 20 4 = 0 := toFin_eq_zero_iff _
theorem rs1Field_eq_zero_iff (w : CmdWord) : rs1Field w = 0 ↔ w.extractLsb' 16 4 = 0 := toFin_eq_zero_iff _
theorem rs2Field_eq_zero_iff (w : CmdWord) : rs2Field w = 0 ↔ w.extractLsb' 12 4 = 0 := toFin_eq_zero_iff _

theorem and_ones_8 (v : BitVec 8) : v &&& 255#8 = v := BitVec.and_allOnes
theorem and_ones_4 (v : BitVec 4) : v &&& 15#4 = v := BitVec.and_allOnes
theorem and_ones_9 (v : BitVec 9) : v &&& 511#9 = v := BitVec.and_allOnes
theorem and_ones_3 (v : BitVec 3) : v &&& 7#3 = v := BitVec.and_allOnes

theorem match_eq_append (op : BitVec 8) :
    op.setWidth 32 <<< 24 = op ++ 0#4 ++ 0#4 ++ 0#4 ++ 0#9 ++ 0#3 := by
  revert op
  decide

theorem immField_eq_append (w : CmdWord) : immField w = w.extractLsb' 3 9 ++ w.extractLsb' 0 3 := by
  rw [BitVec.extractLsb'_append_extractLsb'_eq_extractLsb' (by rfl)]
  rfl

theorem immField_eq_zero_iff (w : CmdWord) :
    immField w = 0 ↔ w.extractLsb' 3 9 = 0 ∧ w.extractLsb' 0 3 = 0 := by
  rw [immField_eq_append]
  exact append_eq_append _ 0 _ 0

theorem immField_high (w : CmdWord) : (immField w).extractLsb' 3 9 = w.extractLsb' 3 9 := by
  rw [immField_eq_append]
  exact BitVec.extractLsb'_append_eq_left

/-- Masking and comparing field by field. -/
theorem append_and_eq_append (o p q : BitVec 8) (a a1 a2 b b1 b2 c c1 c2 : BitVec 4) (d d1 d2 : BitVec 9)
    (e e1 e2 : BitVec 3) :
    (o ++ a ++ b ++ c ++ d ++ e) &&& (p ++ a1 ++ b1 ++ c1 ++ d1 ++ e1) = q ++ a2 ++ b2 ++ c2 ++ d2 ++ e2 ↔
      o &&& p = q ∧ a &&& a1 = a2 ∧ b &&& b1 = b2 ∧ c &&& c1 = c2 ∧ d &&& d1 = d2 ∧ e &&& e1 = e2 := by
  simp only [BitVec.and_append, append_eq_append, and_assoc]

/-- `word & mask == match` says: the opcode is the row's, and the unused fields are zero. -/
theorem Row.matches_iff (row : Row) (w : CmdWord) :
    row.matches w = true ↔ opcodeField w = row.opcode ∧ row.format.unusedZero w := by
  obtain ⟨op, f, mk⟩ := row
  simp only [Row.matches, beq_iff_eq]
  rw [match_eq_append]
  conv_lhs => rw [word_eq_append w, f.mask_eq_append]
  refine (append_and_eq_append ..).trans ?_
  cases f <;>
    simp only [Format.unusedZero, Format.mask, opcodeField, rdField_eq_zero_iff, rs1Field_eq_zero_iff,
      rs2Field_eq_zero_iff, immField_high, immField_eq_zero_iff] <;>
    generalize w.extractLsb' 24 8 = o, w.extractLsb' 20 4 = a, w.extractLsb' 16 4 = b,
      w.extractLsb' 12 4 = c, w.extractLsb' 3 9 = d, w.extractLsb' 0 3 = e <;>
    simp [and_ones_8, and_ones_4, and_ones_9, and_ones_3]

end Sys2Proof
end

