-- ==== Sys2Proof/Laws/Engine.lean ====
section
/-! SUPPORT. The sketches of the lookup-table engine: reading an entry, the window of the logarithm, the remainders
of an angle, and the folding of a sign. -/

namespace Sys2Proof.Config

open Machine

variable {rom : EngineRom}

/-- An index in bounds reads an entry of the table. -/
theorem tableEntry_mem {tbl : List Int} {k : Nat} (h : k < tbl.length) : tableEntry tbl k ∈ tbl := by
  rw [tableEntry, List.getD_eq_getElem _ _ h]
  exact List.getElem_mem h

/-- The mantissa of a logarithm fits the window (R125, R126). -/
theorem log2Fraction_lt (n : Nat) (h : 0 < n) : rom.log2Fraction n < 2 ^ rom.log2Window := by
  have h1 : 2 ^ n.log2 ≤ n := Nat.log2_self_le h.ne'
  have h2 : n < 2 ^ (n.log2 + 1) := Nat.lt_log2_self
  rw [Nat.pow_succ] at h2
  rw [EngineRom.log2Fraction, Nat.div_lt_iff_lt_mul (by positivity), Nat.mul_comm]
  exact Nat.mul_lt_mul_of_pos_left (by omega) (by positivity)

/-- The exponent of a logarithm is from 0 to 62 (R126). -/
theorem log2_le (n : Nat) (h : n < 2 ^ 63) (h0 : 0 < n) : n.log2 ≤ 62 :=
  Nat.lt_succ_iff.mp ((Nat.log2_lt h0.ne').mpr h)

/-- The remainders of an angle by 2π (R132, R165). -/
theorem angleRemainder_bounds (v : Word) : -411775 ≤ angleRemainder v ∧ angleRemainder v ≤ 411774 := by
  have hc : (catalog twoPiIndex).toInt = 26986075409 := by decide
  have hm : ((shl v.toInt 16).tmod 26986075409).natAbs < 26986075409 := by
    rw [Int.natAbs_tmod]
    exact Nat.mod_lt _ (by decide)
  rw [angleRemainder, modhValue, hc, divRound, remainder_towardZero, asr, toInt_wrap64_of_fits] <;> omega

/-- Folding the sign makes a sketch odd, but where there is no sign to fold or its negation wraps. -/
theorem foldSign_neg (f : Nat → Word) (v : Word) (h0 : v ≠ 0) (h : v ≠ minRaw) :
    foldSign f (-v) = -foldSign f v := by
  have hv : v.toInt ≠ 0 := fun e => h0 (BitVec.eq_of_toInt_eq (by rw [e]; rfl))
  have hm : v.toInt ≠ -2 ^ 63 := fun e => h (BitVec.eq_of_toInt_eq (by rw [e]; decide))
  have hn : (-v).toInt = -v.toInt := by
    have := v.toInt_lt
    have := v.le_toInt
    rw [BitVec.toInt_neg]
    apply Int.bmod_eq_of_le <;> norm_num at * <;> omega
  unfold foldSign
  rw [hn]
  rcases lt_or_gt_of_ne hv with h1 | h1
  · rw [if_neg (by omega), if_pos h1]
    simp
  · rw [if_pos (by omega), if_neg (by omega)]
    simp

end Sys2Proof.Config
end

