-- ==== Sys2Proof/Laws/Exec.lean ====
section
/-! SUPPORT. What executing a command can do, said once: every command ends in one of four ways. -/

namespace Sys2Proof.Machine

/-- How a command can end: it completes into its destination, it faults with `DZ` or `DOM`, it answers without
writing a register, or it is CLSR. -/
inductive Ends (i : Instr) (s : State) : State → Prop where
  | completes (rd : Reg) (v : Word) (h : i.dest = some rd) : Ends i s (s.complete rd v)
  | faults (c : FaultCause) (hc : c ≠ .ill) (h : i.dest ≠ none) : Ends i s (s.raise c)
  | answers (d : Word) (h : i.dest = none) (hi : i ≠ .clsr) : Ends i s (s.respond .ok d)
  | clears (h : i = .clsr) : Ends i s (s.clearFsr.respond .ok 0)

theorem ends_guarded (i : Instr) (s : State) (p : Prop) [Decidable p] (c : FaultCause) (hc : c ≠ .ill) (rd : Reg)
    (v : Word) (h : i.dest = some rd) :
    Ends i s (if p then s.raise c else s.complete rd v) := by
  split
  · exact .faults c hc (by simp [h])
  · exact .completes rd v h

/-- Every command ends in a next state, in one of the four ways. -/
theorem exec_ends (i : Instr) (s : State) : ∃ t, exec i s = .next t ∧ Ends i s t := by
  cases i <;> refine ⟨_, rfl, ?_⟩ <;>
    first
      | exact .completes _ _ rfl
      | exact ends_guarded _ _ _ _ (by decide) _ _ rfl
      | exact .answers _ rfl (by simp)
      | exact .clears rfl

/-- The same, read from a given outcome. -/
theorem ends_of_exec {i : Instr} {s t : State} (h : exec i s = .next t) : Ends i s t := by
  obtain ⟨u, hu, he⟩ := exec_ends i s
  rw [hu] at h
  cases h
  exact he

end Sys2Proof.Machine
end

