-- ==== Sys2Proof/Laws/PerInstr.lean ====
section
/-! SUPPORT. Statements made once per constructor of `Instr`. -/

namespace Sys2Proof.Laws.RoundTrip

/-- Decoding what a well-formed command encodes to gives the command back. -/
def Statement (i : Instr) : Prop := WellFormed i → decode (encode i) = some i

/-- A row that stands at place k of the table, the only one before which none has its opcode, decodes what it packs. -/
theorem decode_packed (before after : List Row) (row : Row) (ht : opcodeTable = before ++ row :: after)
    (hb : before.all (fun q => q.opcode != row.opcode) = true)
    (rd rs1 rs2 : Reg) (imm12 : BitVec 12) (data : Word)
    (hz : row.format.unusedZero (packWord row.opcode rd rs1 rs2 imm12)) :
    decode ⟨packWord row.opcode rd rs1 rs2 imm12, data⟩ = some (row.make ⟨rd, rs1, rs2, imm12, data⟩) := by
  have hrow : row.matches (packWord row.opcode rd rs1 rs2 imm12) = true :=
    (row.matches_iff _).mpr ⟨by simp, hz⟩
  have hbefore : before.find? (·.matches (packWord row.opcode rd rs1 rs2 imm12)) = none := by
    rw [List.find?_eq_none]
    intro q hq hm
    have hne := List.all_eq_true.mp hb q hq
    have hop := ((q.matches_iff _).mp hm).1
    rw [opcodeField_packWord] at hop
    simp [hop] at hne
  rw [decode, ht, List.find?_append, hbefore]
  simp [hrow, fieldsOf]

theorem nop : Statement .nop := fun _ =>
  decode_packed (opcodeTable.take 0) (opcodeTable.drop 1) (rowZ 0x00 .nop) rfl (by decide) 0 0 0 0 0 (by simp [rowZ, Format.unusedZero])

theorem ldr (rd : Reg) (datum : Word) : Statement (.ldr rd datum) := fun _ =>
  decode_packed (opcodeTable.take 1) (opcodeTable.drop 2) (rowD 0x01 .ldr) rfl (by decide) rd 0 0 0 datum (by simp [rowD, Format.unusedZero])

theorem rdr (rs1 : Reg) : Statement (.rdr rs1) := fun _ =>
  decode_packed (opcodeTable.take 2) (opcodeTable.drop 3) (rowS 0x02 .rdr) rfl (by decide) 0 rs1 0 0 0 (by simp [rowS, Format.unusedZero])

theorem mov (rd rs1 : Reg) : Statement (.mov rd rs1) := fun _ =>
  decode_packed (opcodeTable.take 3) (opcodeTable.drop 4) (rowR2 0x03 .mov) rfl (by decide) rd rs1 0 0 0 (by simp [rowR2, Format.unusedZero])

theorem rdsr : Statement .rdsr := fun _ =>
  decode_packed (opcodeTable.take 4) (opcodeTable.drop 5) (rowZ 0x04 .rdsr) rfl (by decide) 0 0 0 0 0 (by simp [rowZ, Format.unusedZero])

theorem clsr : Statement .clsr := fun _ =>
  decode_packed (opcodeTable.take 5) (opcodeTable.drop 6) (rowZ 0x05 .clsr) rfl (by decide) 0 0 0 0 0 (by simp [rowZ, Format.unusedZero])

theorem add (rd rs1 rs2 : Reg) : Statement (.add rd rs1 rs2) := fun _ =>
  decode_packed (opcodeTable.take 6) (opcodeTable.drop 7) (rowR3 0x10 .add) rfl (by decide) rd rs1 rs2 0 0 (by simp [rowR3, Format.unusedZero])

theorem sub (rd rs1 rs2 : Reg) : Statement (.sub rd rs1 rs2) := fun _ =>
  decode_packed (opcodeTable.take 7) (opcodeTable.drop 8) (rowR3 0x11 .sub) rfl (by decide) rd rs1 rs2 0 0 (by simp [rowR3, Format.unusedZero])

theorem mul (rd rs1 rs2 : Reg) : Statement (.mul rd rs1 rs2) := fun _ =>
  decode_packed (opcodeTable.take 8) (opcodeTable.drop 9) (rowR3 0x12 .mul) rfl (by decide) rd rs1 rs2 0 0 (by simp [rowR3, Format.unusedZero])

theorem mult (rd rs1 rs2 : Reg) : Statement (.mult rd rs1 rs2) := fun _ =>
  decode_packed (opcodeTable.take 9) (opcodeTable.drop 10) (rowR3 0x13 .mult) rfl (by decide) rd rs1 rs2 0 0 (by simp [rowR3, Format.unusedZero])

theorem div (rd rs1 rs2 : Reg) : Statement (.div rd rs1 rs2) := fun _ =>
  decode_packed (opcodeTable.take 10) (opcodeTable.drop 11) (rowR3 0x14 .div) rfl (by decide) rd rs1 rs2 0 0 (by simp [rowR3, Format.unusedZero])

theorem mod (rd rs1 rs2 : Reg) : Statement (.mod rd rs1 rs2) := fun _ =>
  decode_packed (opcodeTable.take 11) (opcodeTable.drop 12) (rowR3 0x15 .mod) rfl (by decide) rd rs1 rs2 0 0 (by simp [rowR3, Format.unusedZero])

theorem neg (rd rs1 : Reg) : Statement (.neg rd rs1) := fun _ =>
  decode_packed (opcodeTable.take 12) (opcodeTable.drop 13) (rowR2 0x16 .neg) rfl (by decide) rd rs1 0 0 0 (by simp [rowR2, Format.unusedZero])

theorem abs (rd rs1 : Reg) : Statement (.abs rd rs1) := fun _ =>
  decode_packed (opcodeTable.take 13) (opcodeTable.drop 14) (rowR2 0x17 .abs) rfl (by decide) rd rs1 0 0 0 (by simp [rowR2, Format.unusedZero])

theorem min (rd rs1 rs2 : Reg) : Statement (.min rd rs1 rs2) := fun _ =>
  decode_packed (opcodeTable.take 14) (opcodeTable.drop 15) (rowR3 0x18 .min) rfl (by decide) rd rs1 rs2 0 0 (by simp [rowR3, Format.unusedZero])

theorem max (rd rs1 rs2 : Reg) : Statement (.max rd rs1 rs2) := fun _ =>
  decode_packed (opcodeTable.take 15) (opcodeTable.drop 16) (rowR3 0x19 .max) rfl (by decide) rd rs1 rs2 0 0 (by simp [rowR3, Format.unusedZero])

theorem adds (rd rs1 rs2 : Reg) : Statement (.adds rd rs1 rs2) := fun _ =>
  decode_packed (opcodeTable.take 16) (opcodeTable.drop 17) (rowR3 0x1A .adds) rfl (by decide) rd rs1 rs2 0 0 (by simp [rowR3, Format.unusedZero])

theorem subs (rd rs1 rs2 : Reg) : Statement (.subs rd rs1 rs2) := fun _ =>
  decode_packed (opcodeTable.take 17) (opcodeTable.drop 18) (rowR3 0x1B .subs) rfl (by decide) rd rs1 rs2 0 0 (by simp [rowR3, Format.unusedZero])

theorem muls (rd rs1 rs2 : Reg) : Statement (.muls rd rs1 rs2) := fun _ =>
  decode_packed (opcodeTable.take 18) (opcodeTable.drop 19) (rowR3 0x1C .muls) rfl (by decide) rd rs1 rs2 0 0 (by simp [rowR3, Format.unusedZero])

theorem ceq (rd rs1 rs2 : Reg) : Statement (.ceq rd rs1 rs2) := fun _ =>
  decode_packed (opcodeTable.take 19) (opcodeTable.drop 20) (rowR3 0x20 .ceq) rfl (by decide) rd rs1 rs2 0 0 (by simp [rowR3, Format.unusedZero])

theorem cne (rd rs1 rs2 : Reg) : Statement (.cne rd rs1 rs2) := fun _ =>
  decode_packed (opcodeTable.take 20) (opcodeTable.drop 21) (rowR3 0x21 .cne) rfl (by decide) rd rs1 rs2 0 0 (by simp [rowR3, Format.unusedZero])

theorem clt (rd rs1 rs2 : Reg) : Statement (.clt rd rs1 rs2) := fun _ =>
  decode_packed (opcodeTable.take 21) (opcodeTable.drop 22) (rowR3 0x22 .clt) rfl (by decide) rd rs1 rs2 0 0 (by simp [rowR3, Format.unusedZero])

theorem cle (rd rs1 rs2 : Reg) : Statement (.cle rd rs1 rs2) := fun _ =>
  decode_packed (opcodeTable.take 22) (opcodeTable.drop 23) (rowR3 0x23 .cle) rfl (by decide) rd rs1 rs2 0 0 (by simp [rowR3, Format.unusedZero])

theorem cgt (rd rs1 rs2 : Reg) : Statement (.cgt rd rs1 rs2) := fun _ =>
  decode_packed (opcodeTable.take 23) (opcodeTable.drop 24) (rowR3 0x24 .cgt) rfl (by decide) rd rs1 rs2 0 0 (by simp [rowR3, Format.unusedZero])

theorem cge (rd rs1 rs2 : Reg) : Statement (.cge rd rs1 rs2) := fun _ =>
  decode_packed (opcodeTable.take 24) (opcodeTable.drop 25) (rowR3 0x25 .cge) rfl (by decide) rd rs1 rs2 0 0 (by simp [rowR3, Format.unusedZero])

theorem sqrt (rd rs1 : Reg) : Statement (.sqrt rd rs1) := fun _ =>
  decode_packed (opcodeTable.take 25) (opcodeTable.drop 26) (rowR2 0x30 .sqrt) rfl (by decide) rd rs1 0 0 0 (by simp [rowR2, Format.unusedZero])

theorem sqrtr (rd rs1 : Reg) : Statement (.sqrtr rd rs1) := fun _ =>
  decode_packed (opcodeTable.take 26) (opcodeTable.drop 27) (rowR2 0x31 .sqrtr) rfl (by decide) rd rs1 0 0 0 (by simp [rowR2, Format.unusedZero])

theorem log2 (rd rs1 : Reg) : Statement (.log2 rd rs1) := fun _ =>
  decode_packed (opcodeTable.take 27) (opcodeTable.drop 28) (rowR2 0x32 .log2) rfl (by decide) rd rs1 0 0 0 (by simp [rowR2, Format.unusedZero])

theorem ln (rd rs1 : Reg) : Statement (.ln rd rs1) := fun _ =>
  decode_packed (opcodeTable.take 28) (opcodeTable.drop 29) (rowR2 0x33 .ln) rfl (by decide) rd rs1 0 0 0 (by simp [rowR2, Format.unusedZero])

theorem log10 (rd rs1 : Reg) : Statement (.log10 rd rs1) := fun _ =>
  decode_packed (opcodeTable.take 29) (opcodeTable.drop 30) (rowR2 0x34 .log10) rfl (by decide) rd rs1 0 0 0 (by simp [rowR2, Format.unusedZero])

theorem exp (rd rs1 : Reg) : Statement (.exp rd rs1) := fun _ =>
  decode_packed (opcodeTable.take 30) (opcodeTable.drop 31) (rowR2 0x35 .exp) rfl (by decide) rd rs1 0 0 0 (by simp [rowR2, Format.unusedZero])

theorem sin (rd rs1 : Reg) : Statement (.sin rd rs1) := fun _ =>
  decode_packed (opcodeTable.take 31) (opcodeTable.drop 32) (rowR2 0x36 .sin) rfl (by decide) rd rs1 0 0 0 (by simp [rowR2, Format.unusedZero])

theorem cos (rd rs1 : Reg) : Statement (.cos rd rs1) := fun _ =>
  decode_packed (opcodeTable.take 32) (opcodeTable.drop 33) (rowR2 0x37 .cos) rfl (by decide) rd rs1 0 0 0 (by simp [rowR2, Format.unusedZero])

theorem tan (rd rs1 : Reg) : Statement (.tan rd rs1) := fun _ =>
  decode_packed (opcodeTable.take 33) (opcodeTable.drop 34) (rowR2 0x38 .tan) rfl (by decide) rd rs1 0 0 0 (by simp [rowR2, Format.unusedZero])

theorem asin (rd rs1 : Reg) : Statement (.asin rd rs1) := fun _ =>
  decode_packed (opcodeTable.take 34) (opcodeTable.drop 35) (rowR2 0x39 .asin) rfl (by decide) rd rs1 0 0 0 (by simp [rowR2, Format.unusedZero])

theorem acos (rd rs1 : Reg) : Statement (.acos rd rs1) := fun _ =>
  decode_packed (opcodeTable.take 35) (opcodeTable.drop 36) (rowR2 0x3A .acos) rfl (by decide) rd rs1 0 0 0 (by simp [rowR2, Format.unusedZero])

theorem atan (rd rs1 : Reg) : Statement (.atan rd rs1) := fun _ =>
  decode_packed (opcodeTable.take 36) (opcodeTable.drop 37) (rowR2 0x3B .atan) rfl (by decide) rd rs1 0 0 0 (by simp [rowR2, Format.unusedZero])

theorem atan2 (rd rs1 rs2 : Reg) : Statement (.atan2 rd rs1 rs2) := fun _ =>
  decode_packed (opcodeTable.take 37) (opcodeTable.drop 38) (rowR3 0x3C .atan2) rfl (by decide) rd rs1 rs2 0 0 (by simp [rowR3, Format.unusedZero])

theorem ldhc (rd : Reg) (imm12 : BitVec 12) : Statement (.ldhc rd imm12) := fun h =>
  decode_packed (opcodeTable.take 38) (opcodeTable.drop 39) (rowK 0x40 .ldhc) rfl (by decide) rd 0 0 imm12 0 (⟨by simp [rowK], by simp [rowK], by simpa [rowK, WellFormed, Instr.wf] using h⟩)

theorem divh (rd rs1 rs2 : Reg) : Statement (.divh rd rs1 rs2) := fun _ =>
  decode_packed (opcodeTable.take 39) (opcodeTable.drop 40) (rowR3 0x41 .divh) rfl (by decide) rd rs1 rs2 0 0 (by simp [rowR3, Format.unusedZero])

theorem modh (rd rs1 rs2 : Reg) : Statement (.modh rd rs1 rs2) := fun _ =>
  decode_packed (opcodeTable.take 40) (opcodeTable.drop 41) (rowR3 0x42 .modh) rfl (by decide) rd rs1 rs2 0 0 (by simp [rowR3, Format.unusedZero])

theorem f2xs (rd rs1 : Reg) : Statement (.f2xs rd rs1) := fun _ =>
  decode_packed (opcodeTable.take 41) (opcodeTable.drop 42) (rowR2 0x50 .f2xs) rfl (by decide) rd rs1 0 0 0 (by simp [rowR2, Format.unusedZero])

theorem f2xd (rd rs1 : Reg) : Statement (.f2xd rd rs1) := fun _ =>
  decode_packed (opcodeTable.take 42) (opcodeTable.drop 43) (rowR2 0x51 .f2xd) rfl (by decide) rd rs1 0 0 0 (by simp [rowR2, Format.unusedZero])

theorem i2x (rd rs1 : Reg) : Statement (.i2x rd rs1) := fun _ =>
  decode_packed (opcodeTable.take 43) (opcodeTable.drop 44) (rowR2 0x52 .i2x) rfl (by decide) rd rs1 0 0 0 (by simp [rowR2, Format.unusedZero])

theorem x2i (rd rs1 : Reg) : Statement (.x2i rd rs1) := fun _ =>
  decode_packed (opcodeTable.take 44) (opcodeTable.drop 45) (rowR2 0x53 .x2i) rfl (by decide) rd rs1 0 0 0 (by simp [rowR2, Format.unusedZero])

end Sys2Proof.Laws.RoundTrip
end

