-- ==== Sys2Proof/Laws/Port.lean ====
section
/-! SUPPORT. What a step can do, said once: answer one command, take the reset state, or stay quiet. -/

namespace Sys2Proof.Machine

/-- A command that was run: it ended as its instruction ends, or its word is illegal. -/
theorem runCommand_cases (c : Command) (s : State) :
    (∃ i t, decode c = some i ∧ runCommand c s = .next t ∧ Ends i s t) ∨
      (decode c = none ∧ runCommand c s = .next (s.raise .ill)) := by
  unfold runCommand
  cases h : decode c with
  | none => exact .inr ⟨rfl, rfl⟩
  | some i =>
    obtain ⟨t, ht, he⟩ := exec_ends i s
    exact .inl ⟨i, t, rfl, ht, he⟩

/-- Every command that is run ends in a next state. -/
theorem runCommand_next (c : Command) (s : State) : ∃ t, runCommand c s = .next t := by
  obtain ⟨_, t, _, ht, _⟩ | ⟨_, ht⟩ := runCommand_cases c s
  · exact ⟨t, ht⟩
  · exact ⟨_, ht⟩

/-- What one step can do to the state `s`, and when it does: `h` is what is left of the host's events. -/
inductive Moves (s : State) : State → Prop where
  /-- One command was run to its response. -/
  | ran (c : Command) (h : List HostEvent) (t : State) (hc : answeredCommand s = some c)
      (ht : runCommand c { s with inFlight := none, host := h } = .next t) : Moves s t
  /-- The reset state was taken. -/
  | reset (h : List HostEvent) (hr : ResetsNext s) : Moves s { State.reset with host := h }
  /-- No response was given. -/
  | quiet (f : Option InFlight) (h : List HostEvent) (hc : answeredCommand s = none) :
      Moves s { s with inFlight := f, rsp := none, host := h }

/-- A step that is a run of the command it answers. -/
theorem ran_moves {s : State} (c : Command) (h : List HostEvent) (hc : answeredCommand s = some c) :
    ∃ t, runCommand c { s with inFlight := none, host := h } = .next t ∧ Moves s t := by
  obtain ⟨t, ht⟩ := runCommand_next c { s with inFlight := none, host := h }
  exact ⟨t, ht, .ran c h t hc ht⟩

/-- An edge for a command in flight, or for one accepted at it. -/
theorem tick_moves {s : State} (f : InFlight) (h : List HostEvent)
    (hc : answeredCommand s = if f.left = 0 then some f.command else none) :
    ∃ t, tick f { s with host := h } = .next t ∧ Moves s t := by
  obtain ⟨c, n⟩ := f
  cases n with
  | zero => exact ran_moves c h hc
  | succ n => exact ⟨_, rfl, .quiet _ h hc⟩

section
variable {p : Pins} {s : State}

/-- The four things an edge does, each under its condition. -/
theorem edge_reset (hr : p.rst = true) : edge p s = .next s.applyReset := if_pos hr

theorem edge_busy {f : InFlight} (hr : p.rst = false) (hf : s.inFlight = some f) : edge p s = tick f s := by
  simp [edge, hr, hf]

theorem edge_accepts (hr : p.rst = false) (hv : p.cmdValid = true) (hs : s.cmdReady = true) :
    edge p s = tick (accepted ⟨p.cmdWord, p.cmdData⟩) s := by
  have hf : s.inFlight = none := Option.isNone_iff_eq_none.mp (Bool.and_eq_true_iff.mp hs).1
  simp [edge, hr, hf, hv, hs]

theorem edge_idles (hr : p.rst = false) (hf : s.inFlight = none) (hv : ¬(p.cmdValid = true ∧ s.cmdReady = true)) :
    edge p s = .next s.clearPulse := by
  rw [← Bool.and_eq_true_iff] at hv
  simp only [edge, hr, hf, Bool.false_eq_true, if_false, if_neg hv]

end

theorem edge_moves {s : State} (p : Pins) (h : List HostEvent) (hh : s.host = .edge p :: h) :
    ∃ t, edge p { s with host := h } = .next t ∧ Moves s t := by
  cases hr : p.rst with
  | true => exact ⟨_, edge_reset hr, .reset h ⟨p, h, hh, hr⟩⟩
  | false =>
    obtain hf | ⟨f, hf⟩ := Option.eq_none_or_eq_some s.inFlight
    · by_cases hv : p.cmdValid = true ∧ s.cmdReady = true
      · obtain ⟨t, ht, hm⟩ := tick_moves (s := s) (accepted ⟨p.cmdWord, p.cmdData⟩) h
          (by simp only [answeredCommand, hh, hf, hr, hv, true_and]; rfl)
        exact ⟨t, (edge_accepts (s := { s with host := h }) hr hv.1 hv.2).trans ht, hm⟩
      · have hc : answeredCommand s = none := by
          simp only [answeredCommand, hh, hf]
          exact if_neg fun e => hv ⟨e.2.1, e.2.2.1⟩
        exact ⟨_, edge_idles hr hf hv, .quiet s.inFlight h hc⟩
    · obtain ⟨t, ht, hm⟩ := tick_moves (s := s) f h (by simp only [answeredCommand, hh, hf, hr, true_and])
      exact ⟨t, (edge_busy (s := { s with host := h }) hr hf).trans ht, hm⟩

/-- Every step ends in a next state, in one of the three ways. -/
theorem step_moves (s : State) : ∃ t, step s = .next t ∧ Moves s t := by
  obtain ⟨x, fsr, fl, rsp, rs, host⟩ := s
  match host, fl with
  | .edge p :: rest, fl => exact edge_moves (s := ⟨x, fsr, fl, rsp, rs, .edge p :: rest⟩) p rest rfl
  | .command c :: rest, none => exact ran_moves (s := ⟨x, fsr, none, rsp, rs, .command c :: rest⟩) c rest rfl
  | .command c :: rest, some f => exact ran_moves (s := ⟨x, fsr, some f, rsp, rs, .command c :: rest⟩) f.command _ rfl
  | [], some f => exact ran_moves (s := ⟨x, fsr, some f, rsp, rs, []⟩) f.command _ rfl
  | [], none => exact ⟨_, rfl, .quiet (s := ⟨x, fsr, none, rsp, rs, []⟩) none [] rfl⟩

end Sys2Proof.Machine
end

