-- ==== Sys2Proof/Tests/Slice0.lean ====
section
/-! SUPPORT. Tests of the model. Expected values are those of spec/95_test_vectors.md, whose vector stands in each
comment, and command words are written out from the fields of 30_encoding.md R63. Below them, for every obligation
with hypotheses, a witness that some state and operands meet them. -/

namespace Sys2Proof.Tests

open Machine

/-- After reset, with `x1` and `x2` loaded and a mark in the destination `x3`. -/
def loaded (a b : Word) : State := ((State.reset.writeReg 1 a).writeReg 2 b).writeReg 3 0xAAAA

/-- What a step leaves to be seen: `x3`, `rsp_code`, `rsp_data` and `FSR`. -/
def seen : Result → Option (Word × BitVec 3 × Word × Word)
  | .next t => t.rsp.map fun r => (t.readReg 3, r.code.bits, r.data, t.fsr.toWord)
  | _ => none

/-- One step on a command word and its datum, from the given operands. -/
def ran (word : CmdWord) (data a b : Word) : Option (Word × BitVec 3 × Word × Word) :=
  seen (step (presentNext ⟨word, data⟩ (loaded a b)))

/-- The command wrote v to `x3` and answered (`OK`, 0); `FSR` stays zero. -/
def wrote (v : Word) : Option (Word × BitVec 3 × Word × Word) := some (v, 0, 0, 0)

/-- The command answered with a datum and wrote nothing. -/
def answered (d : Word) : Option (Word × BitVec 3 × Word × Word) := some (0xAAAA, 0, d, 0)

/-- The command faulted: `x3` is not written. -/
def faulted (code : BitVec 3) (fsr : Word) : Option (Word × BitVec 3 × Word × Word) := some (0xAAAA, code, 0, fsr)

/-! ### Well-formedness -/

theorem test_wf_ldhc_last : WellFormed (.ldhc 2 7) := by decide
theorem test_wf_ldhc_high_bit_refused : ¬WellFormed (.ldhc 2 8) := by decide
theorem test_wf_ldhc_top_bit_refused : ¬WellFormed (.ldhc 2 0x800) := by decide

/-! ### Decoding: the examples of R77 and of the rules, and the illegal words of V-SYS-6 to V-SYS-12 -/

theorem test_decode_nop : decode ⟨0b00000000_0000_0000_0000_000000000000, 5⟩ = some .nop := by decide
theorem test_decode_ldr : decode ⟨0b00000001_0001_0000_0000_000000000000, 0x18000⟩ = some (.ldr 1 0x18000) := by
  decide
theorem test_decode_rdr : decode ⟨0b00000010_0000_0011_0000_000000000000, 5⟩ = some (.rdr 3) := by decide
theorem test_decode_mov : decode ⟨0b00000011_0101_0011_0000_000000000000, 5⟩ = some (.mov 5 3) := by decide
theorem test_decode_neg : decode ⟨0b00010110_0100_0011_0000_000000000000, 5⟩ = some (.neg 4 3) := by decide
theorem test_decode_add : decode ⟨0b00010000_0011_0001_0010_000000000000, 5⟩ = some (.add 3 1 2) := by decide
theorem test_decode_cle : decode ⟨0b00100011_0101_0100_0011_000000000000, 5⟩ = some (.cle 5 4 3) := by decide
theorem test_decode_atan2 : decode ⟨0b00111100_0101_1111_0001_000000000000, 5⟩ = some (.atan2 5 15 1) := by decide
theorem test_decode_ldhc : decode ⟨0b01000000_0010_0000_0000_000000000001, 5⟩ = some (.ldhc 2 1) := by decide
theorem test_decode_f2xd : decode ⟨0b01010001_0011_0001_0000_000000000000, 5⟩ = some (.f2xd 3 1) := by decide
theorem test_decode_table_word : decodeTableWord 32 0x15874000 = some (.mod 8 7 4) := by decide
theorem test_decode_unused_bits_refused :
    ([0x00000001, 0x01100001, 0x02130000, 0x16431000, 0x40200008, 0x40210001] : List CmdWord).all
      (fun w => decode ⟨w, 0⟩ == none) = true := by decide
theorem test_decode_reserved_refused :
    ([0x06000000, 0x1D000000, 0x26000000, 0x3D000000, 0x43000000, 0x54000000, 0xFF000000] : List CmdWord).all
      (fun w => decode ⟨w, 0⟩ == none) = true := by decide
theorem test_encode_add : encode (.add 3 1 2) = ⟨0x10312000, 0⟩ := by decide
theorem test_encode_ldr : encode (.ldr 1 0x18000) = ⟨0x01100000, 0x18000⟩ := by decide

/-! ### Data movement and status -/

-- V-SYS-1.
theorem test_nop : ran 0x00000000 9 0 0 = answered 0 := by decide
-- V-SYS-2, into x3.
theorem test_ldr : ran 0x01300000 0xFEDCBA9876543210 0 0 = wrote 0xFEDCBA9876543210 := by decide
-- V-SYS-3, from x1.
theorem test_rdr : ran 0x02010000 9 0xFEDCBA9876543210 0 = answered 0xFEDCBA9876543210 := by decide
-- V-SYS-4: x0 is an ordinary register.
theorem test_mov_x0 : seen (exec (.rdr 0) (match exec (.mov 0 1) (loaded 0xFEDCBA9876543210 0) with
    | .next t => t | _ => State.reset)) = answered 0xFEDCBA9876543210 := by decide
-- V-SYS-5, and program 3 after its seventh command.
theorem test_rdsr_reset : ran 0x04000000 9 0 0 = answered 0 := by decide
theorem test_rdsr_bits : seen (exec .rdsr { loaded 0 0 with fsr := ⟨true, true, false⟩ }) =
    some (0xAAAA, 0, 3, 3) := by decide
-- R195.
theorem test_clsr : seen (exec .clsr { loaded 0 0 with fsr := ⟨true, true, true⟩ }) = answered 0 := by decide
-- V-SYS-6, and V-SYS-12 for a word whose datum and registers do not matter.
theorem test_illegal_unused_bit : ran 0x00000001 9 0 0 = faulted 3 4 := by decide
theorem test_illegal_reserved : ran 0x06000000 9 1 0 = faulted 3 4 := by decide
-- R207: an illegal DIV by zero raises ILL and not DZ.
theorem test_illegal_has_priority : ran 0x14312001 9 1 0 = faulted 3 4 := by decide


/-! ### Scalar arithmetic -/

-- V-ADD-1.
theorem test_add : ran 0x10312000 9 0x18000 0x24000 = wrote 0x3C000 := by
  decide
-- V-ADD-3.
theorem test_add_wraps : ran 0x10312000 9 0x7FFFFFFFFFFFFFFF 1 = wrote 0x8000000000000000 := by
  decide
-- V-ADD-8.
theorem test_sub : ran 0x11312000 9 0x10000 0x28000 = wrote 0xFFFFFFFFFFFE8000 := by
  decide
-- V-ADD-10.
theorem test_sub_wraps : ran 0x11312000 9 0 0x8000000000000000 = wrote 0x8000000000000000 := by
  decide
-- V-MUL-3.
theorem test_mul_tie_up : ran 0x12312000 9 0xFFFFFFFFFFFFFFFF 0x8000 = wrote 0 := by
  decide
-- V-MUL-15.
theorem test_mul_128 : ran 0x12312000 9 0x100000000 0x100000000 = wrote 0x1000000000000 := by
  decide
-- V-MUL-22.
theorem test_mult_floor : ran 0x13312000 9 0xFFFFFFFFFFFFFFFD 0x5555 = wrote 0xFFFFFFFFFFFFFFFF := by
  decide
-- V-MUL-23.
theorem test_mult : ran 0x13312000 9 0x18000 0x18001 = wrote 0x24001 := by
  decide
-- V-DIV-3.
theorem test_div_toward_zero : ran 0x14312000 9 0xFFFFFFFFFFFF0000 0x30000 = wrote 0xFFFFFFFFFFFFAAAB := by
  decide
-- V-DIV-7.
theorem test_div_by_zero : ran 0x14312000 9 0 0 = faulted 1 1 := by
  decide
-- V-DIV-17.
theorem test_mod_sign_of_dividend : ran 0x15312000 9 0xFFFFFFFFFFF88000 0x20000 = wrote 0xFFFFFFFFFFFE8000 := by
  decide
-- V-DIV-23.
theorem test_mod_by_zero : ran 0x15312000 9 0x78000 0 = faulted 1 1 := by
  decide
-- V-NEG-1.
theorem test_neg : ran 0x16310000 9 0x18000 0 = wrote 0xFFFFFFFFFFFE8000 := by
  decide
-- V-NEG-3.
theorem test_neg_min : ran 0x16310000 9 0x8000000000000000 0 = wrote 0x8000000000000000 := by
  decide
-- V-NEG-5.
theorem test_abs : ran 0x17310000 9 0xFFFFFFFFFFFE8000 0 = wrote 0x18000 := by
  decide
-- V-NEG-7.
theorem test_abs_min : ran 0x17310000 9 0x8000000000000000 0 = wrote 0x8000000000000000 := by
  decide
-- V-MM-3.
theorem test_min_signed : ran 0x18312000 9 0x8000000000000000 0x7FFFFFFFFFFFFFFF = wrote 0x8000000000000000 := by
  decide
-- V-MM-6.
theorem test_max : ran 0x19312000 9 0xFFFFFFFFFFFFFFFF 0 = wrote 0 := by
  decide
-- V-ADD-12.
theorem test_adds_clamps : ran 0x1A312000 9 0x7FFFFFFFFFFFFFFF 1 = wrote 0x7FFFFFFFFFFFFFFF := by
  decide
-- V-ADD-13.
theorem test_adds_clamps_low : ran 0x1A312000 9 0x8000000000000000 0xFFFFFFFFFFFFFFFF = wrote 0x8000000000000000 := by
  decide
-- V-ADD-16.
theorem test_subs_clamps : ran 0x1B312000 9 0 0x8000000000000000 = wrote 0x7FFFFFFFFFFFFFFF := by
  decide
-- V-ADD-15.
theorem test_subs_clamps_low : ran 0x1B312000 9 0x8000000000000000 1 = wrote 0x8000000000000000 := by
  decide
-- V-MUL-26.
theorem test_muls_clamps_low : ran 0x1C312000 9 0xFFFFFF0000000000 0x10000000000 = wrote 0x8000000000000000 := by
  decide
-- V-MUL-29.
theorem test_muls_rounds : ran 0x1C312000 9 0xFFFFFFFFFFFFFFFF 0x8000 = wrote 0 := by
  decide
-- V-DIV-12 and V-DIV-13.
theorem test_div_corners : divValue divWide divRound (-2 ^ 47) (-1) = 0x8000000000000000 ∧
    divValue divWide divRound (2 ^ 47) 65536 = 0xFFFF800000000000 ∧
    divValue true divRound (2 ^ 47) 65536 = 0x800000000000 := by decide
-- V-MUL-11, V-MUL-16 and V-MUL-17 at the other product width.
theorem test_mul_wrapped64 : mulValue .wrapped64 (2 ^ 63 - 1) 65536 = 0xFFFFFFFFFFFFFFFF ∧
    mulValue .wrapped64 (2 ^ 47) 65536 = 0xFFFF800000000000 ∧ mulValue .wrapped64 (2 ^ 40) (2 ^ 40) = 0 := by decide
-- R24: a source that is also the destination is read first.
theorem test_mul_into_source : (exec (.mul 1 1 1) (loaded 0x18000 0) matches .next _) = true ∧
    (match exec (.mul 1 1 1) (loaded 0x18000 0) with | .next t => t.readReg 1 | _ => 0) = 0x24000 := by decide

/-! ### Comparison -/

-- V-CMP-2.
theorem test_ceq : ran 0x20312000 9 0x18000 0x18001 = wrote 0 := by
  decide
-- V-CMP-1.
theorem test_ceq_equal : ran 0x20312000 9 0x18000 0x18000 = wrote 1 := by
  decide
-- V-CMP-2.
theorem test_cne : ran 0x21312000 9 0x18000 0x18001 = wrote 1 := by
  decide
-- V-CMP-4.
theorem test_clt : ran 0x22312000 9 0x8000000000000000 0x7FFFFFFFFFFFFFFF = wrote 1 := by
  decide
-- V-CMP-1.
theorem test_clt_equal : ran 0x22312000 9 0x18000 0x18000 = wrote 0 := by
  decide
-- V-CMP-7.
theorem test_cle : ran 0x23312000 9 0x20000 0xFFFFFFFFFFFE8000 = wrote 0 := by
  decide
-- V-CMP-1.
theorem test_cle_equal : ran 0x23312000 9 0x18000 0x18000 = wrote 1 := by
  decide
-- V-CMP-5.
theorem test_cgt : ran 0x24312000 9 0xFFFFFFFFFFFFFFFF 0 = wrote 0 := by
  decide
-- V-CMP-1.
theorem test_cgt_equal : ran 0x24312000 9 0x18000 0x18000 = wrote 0 := by
  decide
-- V-CMP-4.
theorem test_cge : ran 0x25312000 9 0x8000000000000000 0x7FFFFFFFFFFFFFFF = wrote 0 := by
  decide
-- V-CMP-6.
theorem test_cge_equal : ran 0x25312000 9 0 0 = wrote 1 := by
  decide

/-! ### Lookup-table engine -/

-- V-TR-1.
theorem test_sqrt_negative : ran 0x30310000 9 0xFFFFFFFFFFFF0000 0 = faulted 2 2 := by
  decide
-- V-TR-2.
theorem test_sqrt_zero : ran 0x30310000 9 0 0 = wrote (Config.T.sqrtCore 0) := rfl
-- V-TR-14.
theorem test_sqrtr_unchecked : ran 0x31310000 9 0xFFFFFFFFFFFF0000 0 = wrote (Config.T.sqrtCore 0xFFFFFFFFFFFF0000) := rfl
-- V-TR-3.
theorem test_log2_zero : ran 0x32310000 9 0 0 = faulted 2 2 := by
  decide
-- R127.
theorem test_log2 : ran 0x32310000 9 1 0 = wrote (Config.T.log2Core 1) := rfl
-- V-TR-4.
theorem test_ln_negative : ran 0x33310000 9 0xFFFFFFFFFFFFFFFF 0 = faulted 2 2 := by
  decide
-- V-TR-5.
theorem test_log10_min : ran 0x34310000 9 0x8000000000000000 0 = faulted 2 2 := by
  decide
-- V-TR-15, V-TR-16 and V-TR-17, for the given values of `T.log2Core`.
theorem test_ln_log10_division : divhValue 0x10000 (catalog log2eIndex).toInt = 0xB172 ∧
    divhValue 0x10000 (catalog log2tenIndex).toInt = 0x4D10 ∧
    divhValue (-0x10000) (catalog log2eIndex).toInt = 0xFFFFFFFFFFFF4E8E := by decide
-- V-TR-12 and V-TR-13.
theorem test_exp (v : Word) : (v.toInt < Config.T.expLo.toInt → expValue v = 0) ∧
    (Config.T.expLo.toInt ≤ v.toInt → Config.T.expHi.toInt < v.toInt → expValue v = 0x7FFFFFFFFFFFFFFF) :=
  ⟨fun h => if_pos h, fun h1 h2 => (if_neg (not_lt.mpr h1)).trans (if_pos h2)⟩
-- V-TR-18.
theorem test_sin : ran 0x36310000 9 0x8000000000000000 0 = wrote (Config.T.sin 0x8000000000000000) := rfl
-- V-TR-18.
theorem test_cos : ran 0x37310000 9 0x8000000000000000 0 = wrote (Config.T.cos 0x8000000000000000) := rfl
-- V-TR-18.
theorem test_tan : ran 0x38310000 9 0x8000000000000000 0 = wrote (Config.T.tan 0x8000000000000000) := rfl
-- V-TR-18.
theorem test_atan : ran 0x3B310000 9 0x8000000000000000 0 = wrote (Config.T.atan 0x8000000000000000) := rfl
-- V-TR-6.
theorem test_asin_above : ran 0x39310000 9 0x10001 0 = wrote 0x8000000000000000 := by
  decide
-- V-TR-8.
theorem test_asin_one : ran 0x39310000 9 0x10000 0 = wrote (Config.T.asinCore 0x10000) := rfl
-- V-TR-7.
theorem test_acos_below : ran 0x3A310000 9 0xFFFFFFFFFFFEFFFF 0 = wrote 0x8000000000000000 := by
  decide
-- R140.
theorem test_acos_minus_one : ran 0x3A310000 9 0xFFFFFFFFFFFF0000 0 = wrote (Config.T.acosCore 0xFFFFFFFFFFFF0000) := rfl
-- V-TR-9.
theorem test_atan2_origin : ran 0x3C312000 9 0 0 = wrote 0 := by
  decide
-- V-TR-10 and V-TR-11: y is the first source.
theorem test_atan2_quarters : ran 0x3C312000 9 0x10000 0 = wrote Config.T.piHalf ∧
    ran 0x3C312000 9 0xFFFFFFFFFFFF0000 0 = wrote (-Config.T.piHalf) :=
  ⟨congrArg wrote Config.T_valid.atan2Quarter, congrArg wrote Config.T_valid.atan2NegQuarter⟩

/-! ### High-precision divisor -/

-- V-HP-16 and V-HP-21.
theorem test_ldhc_two_pi : ran 0x40300001 9 0 0 = wrote 0x6487ED511 := by decide
theorem test_ldhc_rad2deg : ran 0x40300006 9 0 0 = wrote 0x394BB834C8 := by decide
-- V-HP-7.
theorem test_divh_widened : ran 0x41312000 9 0x7FFFFFFFFFFFFFFF 0x6487ED511 = wrote 0x145F306DC9ED1015 := by
  decide
-- V-HP-6.
theorem test_divh_by_zero : ran 0x41312000 9 0x10000 0 = faulted 1 1 := by
  decide
-- V-HP-10.
theorem test_modh_negative : ran 0x42312000 9 0xFFFFFFFFFFF90000 0x6487ED511 = wrote 0xFFFFFFFFFFFF487E := by
  decide
-- V-HP-13.
theorem test_modh_by_zero : ran 0x42312000 9 0x10000 0 = faulted 1 1 := by
  decide

/-! ### Conversion -/

-- V-FS-9.
theorem test_f2xs_junk_above : ran 0x50310000 9 0xDEADBEEF3F800000 0 = wrote 0x10000 := by
  decide
-- V-FS-8.
theorem test_f2xs_negative : ran 0x50310000 9 0xC0490FDB 0 = wrote 0xFFFFFFFFFFFCDBC1 := by
  decide
-- V-FD-6.
theorem test_f2xd_truncates : ran 0x51310000 9 0xBFB999999999999A 0 = wrote 0xFFFFFFFFFFFFE667 := by
  decide
-- V-FD-14.
theorem test_f2xd_min : ran 0x51310000 9 0xC2E0000000000000 0 = wrote 0x8000000000000000 := by
  decide
-- V-FD-15, V-FD-16, V-FD-21, V-FD-22 and V-FD-25.
theorem test_f2xd_edges :
    ([0x43D0000000000000, 0x000FFFFFFFFFFFFF, 0x7FF0000000000000, 0x7FF0000000000001] : List Word).all
      (fun v => ieeeToFixed 52 1059 (binary64Parts v) == 0) = true ∧
    ieeeToFixed 52 1059 (binary64Parts 0x42E0000000000000) = 0x8000000000000000 := by decide +kernel
-- V-IX-2.
theorem test_i2x : ran 0x52310000 9 0xFFFFFFFFFFFFFFFD 0 = wrote 0xFFFFFFFFFFFD0000 := by
  decide
-- V-IX-5.
theorem test_i2x_wraps : ran 0x52310000 9 0x800000000000 0 = wrote 0x8000000000000000 := by
  decide
-- V-IX-8.
theorem test_x2i_floor : ran 0x53310000 9 0xFFFFFFFFFFFE8000 0 = wrote 0xFFFFFFFFFFFFFFFE := by
  decide
-- V-IX-11.
theorem test_x2i_min : ran 0x53310000 9 0x8000000000000000 0 = wrote 0xFFFF800000000000 := by
  decide

/-! ### The port -/

-- R190 and log entry 13: an instruction placed with `withFetchWord` runs first after reset.
theorem test_first_instruction : (match step (State.reset.withFetchWord 32 0x06000000) with
    | .next t => t.fsr.toWord | _ => 0) = 4 := by decide
-- R216: with nothing presented the block idles.
theorem test_idle : (match step State.reset with | .next t => decide (t = State.reset) | _ => false) = true := by decide
-- R220: while `rst` = 1 no command is accepted.
theorem test_reset_edge : (match edge ⟨true, true, 0x06000000, 0⟩
      { loaded 1 2 with inFlight := some ⟨⟨0, 0⟩, 0⟩ } with
    | .next t => decide (t = State.reset) | _ => false) = true := by decide
-- R62: the response stands for one cycle.
theorem test_pulse_ends : (match edge ⟨false, true, 0x06000000, 0⟩ ((loaded 1 2).respond .ok 0) with
    | .next t => decide (t.rsp = none ∧ t.fsr.toWord = 0 ∧ t.cmdReady = true) | _ => false) = true := by decide
-- R78 and R162.
theorem test_text_ldhc : assemblerText (.ldhc 2 6) = "LDHC x2, RAD2DEG" := by decide
-- Program 4, commands 11 and 12: clamp -3.0 to [-1.0, 1.0].
theorem test_clamp : seen (execAll (Pseudo.clamp 3 1 2 0).expand
    ((loaded 0xFFFFFFFFFFFD0000 0xFFFFFFFFFFFF0000).writeReg 0 0x10000)) = wrote 0xFFFFFFFFFFFF0000 := by decide

/-! ### Witnesses: states and operands that meet the hypotheses of each obligation -/

/-- The host presents one command to a block with no command in flight. -/
def presenting (word : CmdWord) : State := presentNext ⟨word, 7⟩ (loaded 1 0)

/-- A command in flight with one edge to come before the one that answers it. -/
def busy : State := { loaded 1 0 with inFlight := some ⟨⟨0x14312000, 0⟩, 1⟩ }

/-- An edge with `rst` = 0 and no command. -/
def idle : Pins := ⟨false, false, 0, 0⟩

theorem witness_StepKeepsInvariant : Invariant (presenting 0x14312000) ∧
    ∃ t, step (presenting 0x14312000) = .next t ∧ t.fsr.dz = true :=
  ⟨⟨by simp [presenting, presentNext, loaded, State.writeReg, State.reset], fun _ => rfl,
    by simp [presenting, presentNext, loaded, State.writeReg, State.reset],
    fun c h => absurd h (by cases c <;> decide)⟩, _, rfl, rfl⟩

theorem witness_StepExecutesPresentedCommand : (presenting 0x10312000).inFlight = none ∧
    (presenting 0x10312000).host = [.command ⟨0x10312000, 7⟩] ∧ decode ⟨0x10312000, 7⟩ = some (.add 3 1 2) := by
  decide

theorem witness_FetchWordIsExecutedNext : decodeTableWord 32 0x10312000 = some (.add 3 1 2) := by decide

theorem witness_IllegalWordRaisesIllOnly : (presenting 0x10312001).inFlight = none ∧
    (presenting 0x10312001).host = [.command ⟨0x10312001, 7⟩] ∧ decode ⟨0x10312001, 7⟩ = none := by decide

theorem witness_ResetEdgeGivesResetState : ∃ (s : State) (p : Pins),
    s.host = [.edge p] ∧ p.rst = true ∧ s.inFlight ≠ none :=
  ⟨{ busy with host := [.edge ⟨true, false, 0, 0⟩] }, _, rfl, rfl, by decide⟩

theorem witness_CommandPinsCountOnlyWhenReady : idle.rst = false ∧ busy.cmdReady = false ∧
    ((loaded 1 0).respond .ok 0).cmdReady = false ∧ (loaded 1 0).inFlight = none ∧ idle.cmdValid = false := by decide

/-- The edges of a whole latency, and of none. -/
theorem witness_EdgesRefineCommandStep (word : CmdWord) : (loaded 1 0).cmdReady = true ∧
    (∀ q ∈ List.replicate (Config.latencyExtra (opcodeField word)) idle, q.rst = false) ∧
    (List.replicate (Config.latencyExtra (opcodeField word)) idle).length = Config.latencyExtra (opcodeField word) ∧
    ([] : List Pins).length ≤ Config.latencyExtra (opcodeField word) :=
  ⟨by decide, fun _ hq => by rw [List.eq_of_mem_replicate hq]; rfl, List.length_replicate, Nat.zero_le _⟩

theorem witness_CommandsAnsweredInOrder : ∃ s : State, s.inFlight = none ∧
    s.host = ([⟨0x14312000, 7⟩, ⟨0x06000000, 7⟩] : List Command).map .command ++ [.edge idle] :=
  ⟨{ loaded 1 0 with host := [.command ⟨0x14312000, 7⟩, .command ⟨0x06000000, 7⟩, .edge idle] }, rfl, rfl⟩

theorem witness_EveryAcceptedCommandIsAnswered : busy.inFlight = some ⟨⟨0x14312000, 0⟩, 1⟩ ∧
    [idle, idle].length = 1 + 1 ∧ ∀ q ∈ [idle, idle], q.rst = false := by decide

theorem witness_DecodedExactlyWhenEncoded : WellFormed (.ldr 1 0x18000) ∧ encodeWord (.ldr 1 0x18000) = 0x01100000 := by
  decide

theorem witness_LegalExactlyByTheTable : ∃ r ∈ tableRows, (0x10312000 : CmdWord) &&& r.2 = r.1 := by decide

theorem witness_DatumReachesLdrAlone : decode ⟨0x10312000, 7⟩ = some (.add 3 1 2) ∧
    ∀ rd datum, (.add 3 1 2 : Instr) ≠ .ldr rd datum := ⟨by decide, by simp⟩

/-- Both ends of each reserved range. -/
theorem witness_ReservedOpcodesAreIllegal :
    ([0x06000000, 0x0F000000, 0x1D000000, 0x1F000000, 0x26000000, 0x2F000000, 0x3D000000, 0x3F000000, 0x43000000,
      0x4F000000, 0x54000000, 0xFF000000] : List CmdWord).map opcodeField =
    [0x06, 0x0F, 0x1D, 0x1F, 0x26, 0x2F, 0x3D, 0x3F, 0x43, 0x4F, 0x54, 0xFF] := by decide

theorem witness_UsableProductsAreExact : usable 0xFFFFFFFF80000000 ∧ usable 0x7FFFFFFF := by
  unfold usable; decide

/-- Both ends of the range of A*B + 2^15: -2^63 and 2^63 - 1. -/
theorem witness_ProductWidthsAgreeExactly :
    (0xFFFFFFFFFFFF8000 : Word).toInt * (0x1000000000001 : Word).toInt + 2 ^ 15 = -2 ^ 63 ∧
    (0x7FFFFFFFFFFF7FFF : Word).toInt * (1 : Word).toInt + 2 ^ 15 = 2 ^ 63 - 1 := by decide

theorem witness_ProductWidthsAgreeOnlyInRange :
    mulValue .exact128 (0x10000000000 : Word).toInt (0x10000000000 : Word).toInt =
      mulValue .wrapped64 (0x10000000000 : Word).toInt (0x10000000000 : Word).toInt := by decide

theorem witness_MultiplyLaws : (loaded 5 0x10000).readReg 2 = one ∧
    (loaded 0xFFFFFF0000000000 0x8000000000).signedReg 1 * (loaded 0 0x8000000000).signedReg 2 = -2 ^ 79 ∧
    -2 ^ 79 ≤ (loaded 5 6).signedReg 1 * (loaded 5 6).signedReg 2 ∧
    (loaded 5 6).signedReg 1 * (loaded 5 6).signedReg 2 + 2 ^ 15 < 2 ^ 79 := by decide

theorem witness_DivideDatapath : (loaded 5 6).readReg 2 ≠ 0 := by decide

/-- Both ends of the range of A, and the quotient that does not fit. -/
theorem witness_DivideRoundsTowardZero :
    (loaded 0xFFFF800000000000 1).readReg 2 ≠ 0 ∧ (loaded 0xFFFF800000000000 1).signedReg 1 = -2 ^ 47 ∧
    (loaded 0xFFFF800000000000 1).signedReg 2 ≠ -1 ∧ (loaded 0x7FFFFFFFFFFF 1).signedReg 1 = 2 ^ 47 - 1 ∧
    (loaded 0xFFFF800000000000 0xFFFFFFFFFFFFFFFF).signedReg 1 = -2 ^ 47 ∧
    (loaded 0xFFFF800000000000 0xFFFFFFFFFFFFFFFF).signedReg 2 = -1 := by decide

theorem witness_ModuloLaws : (loaded 5 6).readReg 2 ≠ 0 := by decide

theorem witness_SqrtIsChecked : ((loaded 0xFFFFFFFFFFFFFFFF 0).readReg 1).msb = true ∧
    ((loaded 0 0).readReg 1).msb = false := by decide

theorem witness_RawSqrtHasNoCheck : 0 ≤ (loaded 0 0).signedReg 1 := by decide

theorem witness_SqrtListedProperties : ((loaded 4 9).readReg 1).toNat ≤ ((loaded 4 9).readReg 2).toNat ∧
    0 ≤ (loaded 0x7FFFFFFFFFFFFFFF 9).signedReg 1 ∧ 0 ≤ (loaded 0 9).signedReg 1 := by decide

theorem witness_LogarithmDomain : (loaded 0 0).readReg 1 = 0 ∧ ((loaded 0xFFFFFFFFFFFFFFFF 0).readReg 1).msb = true ∧
    (loaded 1 0).readReg 1 ≠ 0 ∧ ((loaded 1 0).readReg 1).msb = false := by decide

/-- Registers of another state that hold the logarithm and the catalog entry. -/
theorem witness_LnAndLog10DivideLog2 : 0 < (loaded 1 0).signedReg 1 ∧
    ((State.reset.writeReg 1 (Config.T.log2Core 1)).writeReg 2 0x0000000171547653).readReg 1 = Config.T.log2Core 1 ∧
    ((State.reset.writeReg 1 (Config.T.log2Core 1)).writeReg 2 0x0000000171547653).readReg 2 = 0x0000000171547653 ∧
    ((State.reset.writeReg 1 (Config.T.log2Core 1)).writeReg 2 0x000000035269E12F).readReg 2 = 0x000000035269E12F :=
  ⟨by decide, rfl, rfl, rfl⟩

/-- The least and the greatest reduced angle. -/
theorem witness_SinCosListedProperty : (3 : Reg) ≠ 4 ∧ (3 : Reg) ≠ 1 ∧ 0 ≤ (loaded 0 0).signedReg 1 ∧ 0 ≤ (loaded 411774 0).signedReg 1 ∧
    (loaded 411774 0).signedReg 1 * 65536 < (catalog twoPiIndex).toInt ∧
    ¬(loaded 411775 0).signedReg 1 * 65536 < (catalog twoPiIndex).toInt := by decide

theorem logical_eq (v : Word) (n : Int) (h : v.toInt = n) : logical v = (n : ℚ) / 65536 := by rw [logical, h]

/-- One ulp outside each end of [-1, 1], and the ends. -/
theorem witness_ArcSentinel : logical ((loaded 0xFFFFFFFFFFFEFFFF 0).readReg 1) < -1 ∧
    1 < logical ((loaded 0x10001 0).readReg 1) ∧ logical ((loaded 0xFFFFFFFFFFFF0000 0).readReg 1) = -1 ∧
    logical ((loaded 0x10000 0).readReg 1) = 1 := by
  rw [logical_eq _ (-65537) (by decide), logical_eq _ 65537 (by decide), logical_eq _ (-65536) (by decide),
    logical_eq _ 65536 (by decide)]
  norm_num

theorem witness_Atan2Points : ((loaded 0 0).readReg 1 = 0 ∧ (loaded 0 0).readReg 2 = 0) ∧
    ((loaded 0x10000 0).readReg 1 = 0x10000 ∧ (loaded 0x10000 0).readReg 2 = 0) ∧
    ((loaded 0xFFFFFFFFFFFF0000 0).readReg 1 = 0xFFFFFFFFFFFF0000 ∧ (loaded 0xFFFFFFFFFFFF0000 0).readReg 2 = 0) ∧
    ¬((loaded 0 1).readReg 1 = 0 ∧ (loaded 0 1).readReg 2 = 0) := by decide

theorem witness_SketchesFoldSignAndExponent : (1 : Word) ≠ 0 ∧ (1 : Word) ≠ minRaw ∧
    (1 : Word) = BitVec.ofNat 64 (2 ^ 0) ∧ (0x4000000000000000 : Word) = BitVec.ofNat 64 (2 ^ 62) := by decide

/-- The hardware's own tables meet the premise, and some that can be written out meet it together with each clause's. -/
theorem witness_SketchesReadTheirTables : Config.T.InBounds ∧ Config.exampleRom.InBounds ∧
    0 < (1 : Word).toInt ∧ 0 < (0x7FFFFFFFFFFFFFFF : Word).toInt ∧
    (Config.exampleRom.expLo.toInt ≤ (0 : Word).toInt ∧ (0 : Word).toInt ≤ Config.exampleRom.expHi.toInt) ∧
    -65536 ≤ (0xFFFFFFFFFFFF0000 : Word).toInt ∧ (0x10000 : Word).toInt ≤ 65536 :=
  ⟨Config.T_valid.engine.inBounds, Config.exampleRom_inBounds, by decide⟩

theorem witness_HighPrecisionDatapath : (loaded 5 0x6487ED511).readReg 2 ≠ 0 := by decide

theorem witness_HighPrecisionBounds : (loaded 5 0x6487ED511).readReg 2 ≠ 0 ∧
    0 ≤ (loaded 5 0x6487ED511).signedReg 1 ∧ 0 < (loaded 5 0x6487ED511).signedReg 2 ∧
    (loaded 5 0x6487ED511).signedReg 1 * 2 ^ 32 < (loaded 5 0x6487ED511).signedReg 2 * 2 ^ 63 := by decide

/-- 1.5 and -2^47 as doubles. -/
theorem witness_IeeeConversionTruncates_double :
    ((loaded 0x3FF8000000000000 0).readReg 1).toNat / 2 ^ 52 % 2048 ≠ 2047 ∧
    |ieeeValue 11 52 1023 ((loaded 0x3FF8000000000000 0).readReg 1).toNat| < 2 ^ 47 ∧
    ((loaded 0xC2E0000000000000 0).readReg 1).toNat / 2 ^ 52 % 2048 ≠ 2047 ∧
    ieeeValue 11 52 1023 ((loaded 0xC2E0000000000000 0).readReg 1).toNat = -2 ^ 47 := by
  have h1 : ((loaded 0x3FF8000000000000 0).readReg 1).toNat = 0x3FF8000000000000 := by decide
  have h2 : ((loaded 0xC2E0000000000000 0).readReg 1).toNat = 0xC2E0000000000000 := by decide
  rw [h1, h2]
  norm_num [ieeeValue]

/-- 1.5 and -2^47 as floats, with other bits above the first. -/
theorem witness_IeeeConversionTruncates_float :
    ((loaded 0xDEADBEEF3FC00000 0).readReg 1).toNat / 2 ^ 23 % 256 ≠ 255 ∧
    |ieeeValue 8 23 127 (((loaded 0xDEADBEEF3FC00000 0).readReg 1).toNat % 2 ^ 32)| < 2 ^ 47 ∧
    ((loaded 0xD7000000 0).readReg 1).toNat / 2 ^ 23 % 256 ≠ 255 ∧
    ieeeValue 8 23 127 (((loaded 0xD7000000 0).readReg 1).toNat % 2 ^ 32) = -2 ^ 47 := by
  have h1 : ((loaded 0xDEADBEEF3FC00000 0).readReg 1).toNat = 0xDEADBEEF3FC00000 := by decide
  have h2 : ((loaded 0xD7000000 0).readReg 1).toNat = 0xD7000000 := by decide
  rw [h1, h2]
  norm_num [ieeeValue]

/-- The exponent fields at which the clauses begin and end: 0, 1059 and 1123 of a double, 0, 134 and 198 of a float. -/
theorem witness_IeeeConversionEdges :
    ([1, 0x4230000000000000, 0x4630000000000000, 0xFFF0000000000000] : List Word).map
      (fun v => (v.toNat / 2 ^ 52 % 2048, v.toNat % 2 ^ 52)) = [(0, 1), (1059, 0), (1123, 0), (2047, 0)] ∧
    ([1, 0x43000000, 0x63000000, 0xFF800000] : List Word).map
      (fun v => (v.toNat / 2 ^ 23 % 256, v.toNat % 2 ^ 23)) = [(0, 1), (134, 0), (198, 0), (255, 0)] := by decide

theorem witness_IntegerConversion : (loaded 0xFFFF800000000000 0).signedReg 1 = -2 ^ 47 ∧
    (loaded 0x7FFFFFFFFFFF 0).signedReg 1 = 2 ^ 47 - 1 := by decide

/-- A division by zero raises a flag, CLSR takes one down, and a step raises one. -/
theorem witness_FlagsMoveOnlyByFaultClsrReset :
    (∃ t, exec (.div 3 1 2) (loaded 1 0) = .next t ∧ t.fsr.flag .dz ≠ (loaded 1 0).fsr.flag .dz) ∧
    (∃ t, exec .clsr ((loaded 1 0).raise .dz) = .next t ∧ t.fsr.flag .dz ≠ ((loaded 1 0).raise .dz).fsr.flag .dz) ∧
    ∃ t, step (presenting 0x14312000) = .next t ∧ t.fsr.flag .dz = true ∧
      (presenting 0x14312000).fsr.flag .dz = false :=
  ⟨⟨_, rfl, by decide⟩, ⟨_, rfl, by decide⟩, _, rfl, by decide, by decide⟩

/-- A flag goes down at a step: by CLSR presented whole, and by a reset edge. -/
theorem witness_FlagsMoveOnlyByFaultClsrReset_down :
    (∃ t, step (presentNext ⟨0x05000000, 0⟩ ((loaded 1 0).raise .dz)) = .next t ∧ t.fsr.flag .dz = false ∧
      (presentNext ⟨0x05000000, 0⟩ ((loaded 1 0).raise .dz)).fsr.flag .dz = true) ∧
    ∃ t, step { (loaded 1 0).raise .dz with host := [.edge ⟨true, false, 0, 0⟩] } = .next t ∧
      t.fsr.flag .dz = false ∧ ((loaded 1 0).raise .dz).fsr.flag .dz = true :=
  ⟨⟨_, rfl, by decide, by decide⟩, _, rfl, by decide, by decide⟩

theorem witness_NeverFaultingCommands :
    (∀ rd a b, (.clsr : Instr) ≠ .div rd a b ∧ (.clsr : Instr) ≠ .mod rd a b ∧ (.clsr : Instr) ≠ .divh rd a b ∧
      (.clsr : Instr) ≠ .modh rd a b) ∧
    (∀ rd a, (.clsr : Instr) ≠ .sqrt rd a ∧ (.clsr : Instr) ≠ .log2 rd a ∧ (.clsr : Instr) ≠ .ln rd a ∧
      (.clsr : Instr) ≠ .log10 rd a) ∧
    (.atan2 3 1 2 : Instr) ≠ .clsr := by simp

theorem witness_RepeatedFaultLeavesOneBit : faultMet (.div 3 1 2) (loaded 1 0) = some .dz ∧
    ∃ t, exec (.div 3 1 2) (loaded 1 0) = .next t := ⟨by decide, _, rfl⟩

/-- Two states that differ in a register the command does not read and in `FSR`; and two that agree on `FSR`. -/
theorem witness_ResultDependsOnSourcesOnly :
    (∀ r ∈ (.add 3 1 2 : Instr).sources, (loaded 5 6).readReg r =
      (((loaded 5 6).writeReg 4 9).raise .dz).readReg r) ∧
    ((.add 3 1 2 : Instr) = .rdsr → (loaded 5 6).fsr = (((loaded 5 6).writeReg 4 9).raise .dz).fsr) ∧
    (∀ r ∈ (.rdsr : Instr).sources, (loaded 5 6).readReg r = (loaded 7 8).readReg r) ∧
    (loaded 5 6).fsr = (loaded 7 8).fsr := by decide

theorem witness_PseudoInstructions : (3 : Reg) ≠ 2 ∧ (-2 ^ 47 : Int) ≤ -2 ^ 47 ∧ (2 ^ 47 - 1 : Int) < 2 ^ 47 := by
  decide

end Sys2Proof.Tests
end

section
/-! The lookup-table engine (42_transcendental.md): opcodes, domain checks, saturation and sentinels. -/

namespace Sys2Proof.Machine

open Config (T)

/-- A command whose word packs the opcode and decodes back has that opcode (R63, R77). -/
theorem hasOpcode_of_packed {i : Instr} {op : BitVec 8} {rd rs1 rs2 : Reg} {imm12 : BitVec 12}
    (he : encodeWord i = packWord op rd rs1 rs2 imm12) (hw : WellFormed i) (hd : Laws.RoundTrip.Statement i) :
    HasOpcode i op :=
  ⟨by rw [he]; exact opcodeField_packWord op rd rs1 rs2 imm12, hd hw⟩

section Guarded
variable {i : Instr} {s : State} {p : Prop} [Decidable p] {c : FaultCause} {rd : Reg} {v : Word}

/-- A command that tests its operand first faults where the test says so. -/
theorem faults_of_guard (h : exec i s = .next (if p then s.raise c else s.complete rd v)) (hp : p) :
    Faults i s c :=
  faults_of_raise (by rw [h, if_pos hp])

/-- A command that tests its operand first writes where the test lets it pass. -/
theorem writes_of_guard (h : exec i s = .next (if p then s.raise c else s.complete rd v)) (hp : ¬p) :
    Writes i s rd v :=
  writes_of_complete (by rw [h, if_neg hp]) rfl

end Guarded

/-- SQRT's test is the sign bit. -/
theorem signedReg_neg_iff (s : State) (r : Reg) : s.signedReg r < 0 ↔ (s.readReg r).msb = true :=
  (msb_iff _).symm

/-- The test of the logarithms: zero, or the sign bit. -/
theorem signedReg_nonpos_iff (s : State) (r : Reg) :
    s.signedReg r ≤ 0 ↔ s.readReg r = 0 ∨ (s.readReg r).msb = true := by
  rw [le_iff_eq_or_lt, signedReg_eq_zero_iff, signedReg_neg_iff]

/-- EXP's value with the tests in the order of R131: an argument at or below the high cut-off is not saturated by it. -/
theorem expValue_eq (v : Word) : expValue v =
    if v.toInt < T.expLo.toInt then 0 else if v.toInt ≤ T.expHi.toInt then T.expCore v else maxRaw := by
  rw [expValue]
  split
  · rfl
  · simp only [gt_iff_lt, ← not_le, ite_not]

/-- The raw test of R138 is the test on logical values. -/
theorem outsideUnit_iff (v : Word) : outsideUnit v.toInt = true ↔ logical v < -1 ∨ 1 < logical v := by
  have hlow : logical v < -1 ↔ v.toInt < -65536 := by
    rw [logical, div_lt_iff₀ (by norm_num)]
    norm_cast
  have hhigh : 1 < logical v ↔ 65536 < v.toInt := by
    rw [logical, lt_div_iff₀ (by norm_num)]
    norm_cast
  simp [outsideUnit, hlow, hhigh]

theorem not_outsideUnit {v : Word} (h1 : -1 ≤ logical v) (h2 : logical v ≤ 1) : ¬outsideUnit v.toInt = true := by
  rw [outsideUnit_iff]
  exact not_or.mpr ⟨h1.not_gt, h2.not_gt⟩

end Sys2Proof.Machine

open Sys2Proof Sys2Proof.Machine Sys2Proof.Laws

/-- Settles O42: the raw comparison with ±65536 is the comparison of the logical value with ±1. -/
theorem arcSentinel : Obligations.ArcSentinel := by
  intro s rd a
  refine ⟨⟨hasOpcode_of_packed rfl rfl (RoundTrip.asin rd a), hasOpcode_of_packed rfl rfl (RoundTrip.acos rd a)⟩,
    fun hout => ?_, fun h1 h2 => ?_⟩
  · have hsentinel := (outsideUnit_iff _).mpr hout
    exact ⟨writes_of_complete rfl (if_pos hsentinel), writes_of_complete rfl (if_pos hsentinel)⟩
  · have hinside := not_outsideUnit h1 h2
    exact ⟨writes_of_complete rfl (if_neg hinside), writes_of_complete rfl (if_neg hinside)⟩

/-- Settles O34: the sign test is bit 63. -/
theorem sqrtIsChecked : Obligations.SqrtIsChecked := fun s rd a =>
  ⟨hasOpcode_of_packed rfl rfl (RoundTrip.sqrt rd a),
    fun hneg => faults_of_guard rfl ((signedReg_neg_iff s a).mpr hneg),
    fun hpos => writes_of_guard rfl fun h => ne_true_of_eq_false hpos ((signedReg_neg_iff s a).mp h)⟩

/-- Settles O37: the three logarithms make one test, met by zero and by bit 63. -/
theorem logarithmDomain : Obligations.LogarithmDomain := by
  intro s rd a
  refine ⟨hasOpcode_of_packed rfl rfl (RoundTrip.log2 rd a), fun hbad => ?_, fun hne hpos => ?_⟩
  · have hdom := (signedReg_nonpos_iff s a).mpr hbad
    exact ⟨faults_of_guard rfl hdom, faults_of_guard rfl hdom, faults_of_guard rfl hdom⟩
  · exact writes_of_guard rfl fun h =>
      ((signedReg_nonpos_iff s a).mp h).elim hne (ne_true_of_eq_false hpos)

/-- Settles O39: the chain of tests that `expValue_eq` gives. -/
theorem expSaturates : Obligations.ExpSaturates := fun _ rd a =>
  ⟨hasOpcode_of_packed rfl rfl (RoundTrip.exp rd a), writes_of_complete rfl (expValue_eq _)⟩

/-- Settles O40: the four commands test nothing. -/
theorem trigonometricResults : Obligations.TrigonometricResults := fun _ rd a =>
  ⟨⟨hasOpcode_of_packed rfl rfl (RoundTrip.sin rd a), hasOpcode_of_packed rfl rfl (RoundTrip.cos rd a),
      hasOpcode_of_packed rfl rfl (RoundTrip.tan rd a), hasOpcode_of_packed rfl rfl (RoundTrip.atan rd a)⟩,
    writes_of_complete rfl rfl, writes_of_complete rfl rfl, writes_of_complete rfl rfl, writes_of_complete rfl rfl⟩

end

section
/-! The commands that never fault (60_exceptions.md R202). -/

namespace Sys2Proof.Machine

/-- The end R202 gives a command that does not fault: `OK`, and `FSR` as it was unless the command is CLSR. -/
def EndsOk (i : Instr) (s : State) : Prop :=
  ∃ t d, exec i s = .next t ∧ Answered s t .ok d ∧ (i ≠ .clsr → t.fsr = s.fsr)

theorem endsOk_of_writes {i : Instr} {s : State} {rd : Reg} {v : Word} (h : Writes i s rd v) : EndsOk i s := by
  obtain ⟨t, ht, -, -, hfsr, hans⟩ := h
  exact ⟨t, 0, ht, hans, fun _ => hfsr⟩

theorem endsOk_of_reads {i : Instr} {s : State} {d : Word} (h : Reads i s d) : EndsOk i s := by
  obtain ⟨t, ht, -, hfsr, hans⟩ := h
  exact ⟨t, d, ht, hans, fun _ => hfsr⟩

/-- CLSR answers `OK`, and `FSR` is its own to change (R195). -/
theorem endsOk_clsr (s : State) : EndsOk .clsr s :=
  ⟨s.clearFsr.respond .ok 0, 0, rfl, ⟨rfl, rfl, rfl, rfl⟩, absurd rfl⟩

end Sys2Proof.Machine

open Sys2Proof Sys2Proof.Machine

/-- Settles O55: CLSR apart, a command that is not one of the eight either only answers or writes its destination, and
tests nothing before it does. -/
theorem neverFaultingCommands : Obligations.NeverFaultingCommands := by
  intro i s hbinary hunary
  cases i
  case div rd a b => exact absurd rfl (hbinary rd a b).1
  case mod rd a b => exact absurd rfl (hbinary rd a b).2.1
  case divh rd a b => exact absurd rfl (hbinary rd a b).2.2.1
  case modh rd a b => exact absurd rfl (hbinary rd a b).2.2.2
  case sqrt rd a => exact absurd rfl (hunary rd a).1
  case log2 rd a => exact absurd rfl (hunary rd a).2.1
  case ln rd a => exact absurd rfl (hunary rd a).2.2.1
  case log10 rd a => exact absurd rfl (hunary rd a).2.2.2
  case clsr => exact endsOk_clsr s
  case nop | rdr | rdsr => exact endsOk_of_reads (reads_of_respond rfl)
  all_goals exact endsOk_of_writes (writes_of_complete rfl rfl)

end

section
/-! Command words (30_encoding.md): the opcode table against `encodeWord`, for decoding in both directions. -/

namespace Sys2Proof

/-- The word a format packs from an opcode and operand fields: the fields it does not use are zero (R64, R77). -/
def Format.pack (format : Format) (opcode : BitVec 8) (f : Fields) : CmdWord :=
  match format with
  | .Z => packWord opcode 0 0 0 0
  | .D => packWord opcode f.rd 0 0 0
  | .S => packWord opcode 0 f.rs1 0 0
  | .R2 => packWord opcode f.rd f.rs1 0 0
  | .R3 => packWord opcode f.rd f.rs1 f.rs2 0
  | .K => packWord opcode f.rd 0 0 f.imm12

/-- The operand check of a format: only K has one (R66). -/
def Format.operandsOk (format : Format) (f : Fields) : Bool :=
  match format with
  | .K => f.imm12.extractLsb' 3 9 == 0
  | .Z | .D | .S | .R2 | .R3 => true

/-- The command with its datum, if it has one, replaced: LDR's alone (R66). -/
def Instr.withDatum (datum : Word) : Instr → Instr
  | .ldr rd _ => .ldr rd datum
  | i => i

/-- A datum put in place of a command's own leaves it as it is when it is the same datum, or the command has none. -/
theorem Instr.withDatum_eq_self_iff (datum : Word) (i : Instr) :
    i.withDatum datum = i ↔ ∀ rd d, i = .ldr rd d → d = datum := by
  cases i <;> simp [withDatum, eq_comm]

/-- What the row and `encodeWord` say of each other: the row's command packs to the row's word, is well formed when the
operand check of the format passes, and has the datum presented if it has one. -/
structure Row.Spells (row : Row) : Prop where
  word : ∀ f, encodeWord (row.make f) = row.format.pack row.opcode f
  wf : ∀ f, (row.make f).wf = row.format.operandsOk f
  datum : ∀ f d, row.make { f with data := d } = (row.make f).withDatum d

theorem Row.spells_of_mem : ∀ row ∈ opcodeTable, row.Spells := by
  simp only [opcodeTable, List.forall_mem_append, List.forall_mem_cons, List.not_mem_nil, false_imp_iff,
    implies_true, and_true]
  and_intros <;> exact ⟨fun _ => rfl, fun _ => rfl, fun _ _ => rfl⟩

/-- A word whose unused fields are zero is what its format packs. -/
theorem Format.pack_fieldsOf {format : Format} {c : Command} (h : format.unusedZero c.word) :
    format.pack (opcodeField c.word) (fieldsOf c) = c.word := by
  conv_rhs => rw [← packWord_fields c.word]
  cases format <;> simp only [Format.unusedZero] at h
  case Z => simp [Format.pack, h]
  case D => simp [Format.pack, fieldsOf, h]
  case S => simp [Format.pack, fieldsOf, h]
  case R2 => simp [Format.pack, fieldsOf, h]
  case R3 => simp [Format.pack, fieldsOf, h]
  case K => simp [Format.pack, fieldsOf, h]

/-- Unused fields of zero pass the operand check. -/
theorem Format.operandsOk_fieldsOf {format : Format} {c : Command} (h : format.unusedZero c.word) :
    format.operandsOk (fieldsOf c) = true := by
  cases format
  case K => exact beq_iff_eq.mpr h.2.2
  all_goals rfl

/-- A word that decodes is matched by a row of the table, which makes the command. -/
theorem exists_row_of_decode {c : Command} {i : Instr} (h : decode c = some i) :
    ∃ row ∈ opcodeTable, row.matches c.word = true ∧ row.make (fieldsOf c) = i := by
  obtain ⟨row, hfind, hmake⟩ := Option.map_eq_some_iff.mp h
  exact ⟨row, List.mem_of_find?_eq_some hfind, by simpa using List.find?_some hfind, hmake⟩

/-- A word is legal exactly when some row matches it (R75). -/
theorem decode_isSome_iff (c : Command) :
    (decode c).isSome = true ↔ ∃ row ∈ opcodeTable, row.matches c.word = true := by
  simp [decode]

/-- A word that no row matches is illegal (R75). -/
theorem decode_eq_none_of_no_match {c : Command} (h : ∀ row ∈ opcodeTable, row.matches c.word ≠ true) :
    decode c = none := by
  rw [← Option.not_isSome_iff_eq_none, decode_isSome_iff]
  exact fun ⟨row, hmem, hm⟩ => h row hmem hm

/-- Another datum with the same word reaches the command's own datum and nothing else (R66, R79). -/
theorem decode_datum (w : CmdWord) (d e : Word) : decode ⟨w, e⟩ = (decode ⟨w, d⟩).map (·.withDatum e) := by
  rw [decode, decode, Option.map_map]
  refine Option.map_congr fun row hrow => ?_
  have hspells := Row.spells_of_mem row (List.mem_of_find?_eq_some hrow)
  exact hspells.datum (fieldsOf ⟨w, d⟩) e

/-- A command that a word spells is well formed, and the word is its encoding. -/
theorem encodes_of_decode {c : Command} {i : Instr} (h : decode c = some i) :
    WellFormed i ∧ encodeWord i = c.word := by
  obtain ⟨row, hmem, hmatch, rfl⟩ := exists_row_of_decode h
  have hspells := Row.spells_of_mem row hmem
  obtain ⟨hop, hzero⟩ := (row.matches_iff c.word).mp hmatch
  exact ⟨(hspells.wf _).trans (Format.operandsOk_fieldsOf hzero),
    (hspells.word _).trans (hop ▸ Format.pack_fieldsOf hzero)⟩

/-- The row of LDHC is the only one with its opcode. -/
theorem Row.format_of_opcode_ldhc : ∀ row ∈ opcodeTable, row.opcode = 0x40 → row.format = .K := by decide

/-- An LDHC word with a bit of `imm12[11:3]` set matches no row (R64, R66). -/
theorem decode_encode_of_not_wf {i : Instr} (h : i.wf ≠ true) : decode (encode i) = none := by
  cases i
  case ldhc rd imm12 =>
    refine decode_eq_none_of_no_match fun row hmem hm => h ?_
    obtain ⟨hop, hzero⟩ := (row.matches_iff _).mp hm
    have hK := Row.format_of_opcode_ldhc row hmem (hop.symm.trans (opcodeField_packWord 0x40 rd 0 0 imm12))
    rw [hK] at hzero
    obtain ⟨-, -, himm⟩ := hzero
    rw [encode, encodeWord, immField_packWord] at himm
    exact beq_iff_eq.mpr himm
  all_goals exact absurd rfl h

/-- Opcode bytes do not repeat in the table. -/
theorem opcodes_nodup : (opcodeTable.map (·.opcode)).Nodup := by decide

/-- `match` and `mask` of a row, as the opcode table prints them. -/
def Row.matchMask (row : Row) : CmdWord × CmdWord := (row.opcode.setWidth 32 <<< 24, row.format.mask)

theorem Row.matches_iff_matchMask (row : Row) (w : CmdWord) :
    row.matches w = true ↔ w &&& row.matchMask.2 = row.matchMask.1 := beq_iff_eq

/-- The transcribed columns are those of the model's table. -/
theorem tableRows_eq : tableRows = opcodeTable.map Row.matchMask := by decide

/-- A word matches one row at most: its opcode byte is the row's. -/
theorem Row.eq_of_matches {row row' : Row} {w : CmdWord} (h : row ∈ opcodeTable) (h' : row' ∈ opcodeTable)
    (hm : row.matches w = true) (hm' : row'.matches w = true) : row = row' :=
  List.inj_on_of_nodup_map opcodes_nodup h h'
    (((row.matches_iff w).mp hm).1.symm.trans ((row'.matches_iff w).mp hm').1)

/-- The reserved opcode bytes of R74. -/
def reservedOpcode (op : BitVec 8) : Prop :=
  (0x06 ≤ op ∧ op ≤ 0x0F) ∨ (0x1D ≤ op ∧ op ≤ 0x1F) ∨ (0x26 ≤ op ∧ op ≤ 0x2F) ∨ (0x3D ≤ op ∧ op ≤ 0x3F) ∨
    (0x43 ≤ op ∧ op ≤ 0x4F) ∨ 0x54 ≤ op

theorem Row.not_reservedOpcode : ∀ row ∈ opcodeTable, ¬reservedOpcode row.opcode := by
  unfold reservedOpcode
  decide

end Sys2Proof

open Sys2Proof Sys2Proof.Laws

/-- Settles O14: each well-formed term decodes back by its row (`Laws.RoundTrip`); the others are LDHC with a high
immediate bit, whose word no row matches. -/
theorem decodeOfEncode : Obligations.DecodeOfEncode := by
  intro i
  split
  next hwf =>
    cases i
    case nop => exact RoundTrip.nop hwf
    case ldr rd datum => exact RoundTrip.ldr rd datum hwf
    case rdr a => exact RoundTrip.rdr a hwf
    case mov rd a => exact RoundTrip.mov rd a hwf
    case rdsr => exact RoundTrip.rdsr hwf
    case clsr => exact RoundTrip.clsr hwf
    case add rd a b => exact RoundTrip.add rd a b hwf
    case sub rd a b => exact RoundTrip.sub rd a b hwf
    case mul rd a b => exact RoundTrip.mul rd a b hwf
    case mult rd a b => exact RoundTrip.mult rd a b hwf
    case div rd a b => exact RoundTrip.div rd a b hwf
    case mod rd a b => exact RoundTrip.mod rd a b hwf
    case neg rd a => exact RoundTrip.neg rd a hwf
    case abs rd a => exact RoundTrip.abs rd a hwf
    case min rd a b => exact RoundTrip.min rd a b hwf
    case max rd a b => exact RoundTrip.max rd a b hwf
    case adds rd a b => exact RoundTrip.adds rd a b hwf
    case subs rd a b => exact RoundTrip.subs rd a b hwf
    case muls rd a b => exact RoundTrip.muls rd a b hwf
    case ceq rd a b => exact RoundTrip.ceq rd a b hwf
    case cne rd a b => exact RoundTrip.cne rd a b hwf
    case clt rd a b => exact RoundTrip.clt rd a b hwf
    case cle rd a b => exact RoundTrip.cle rd a b hwf
    case cgt rd a b => exact RoundTrip.cgt rd a b hwf
    case cge rd a b => exact RoundTrip.cge rd a b hwf
    case sqrt rd a => exact RoundTrip.sqrt rd a hwf
    case sqrtr rd a => exact RoundTrip.sqrtr rd a hwf
    case log2 rd a => exact RoundTrip.log2 rd a hwf
    case ln rd a => exact RoundTrip.ln rd a hwf
    case log10 rd a => exact RoundTrip.log10 rd a hwf
    case exp rd a => exact RoundTrip.exp rd a hwf
    case sin rd a => exact RoundTrip.sin rd a hwf
    case cos rd a => exact RoundTrip.cos rd a hwf
    case tan rd a => exact RoundTrip.tan rd a hwf
    case asin rd a => exact RoundTrip.asin rd a hwf
    case acos rd a => exact RoundTrip.acos rd a hwf
    case atan rd a => exact RoundTrip.atan rd a hwf
    case atan2 rd a b => exact RoundTrip.atan2 rd a b hwf
    case ldhc rd imm12 => exact RoundTrip.ldhc rd imm12 hwf
    case divh rd a b => exact RoundTrip.divh rd a b hwf
    case modh rd a b => exact RoundTrip.modh rd a b hwf
    case f2xs rd a => exact RoundTrip.f2xs rd a hwf
    case f2xd rd a => exact RoundTrip.f2xd rd a hwf
    case i2x rd a => exact RoundTrip.i2x rd a hwf
    case x2i rd a => exact RoundTrip.x2i rd a hwf
  next hwf => exact decode_encode_of_not_wf hwf

/-- Settles O15: a decoded word is what its row packs, and another datum changes LDR's operand only. -/
theorem decodedExactlyWhenEncoded : Obligations.DecodedExactlyWhenEncoded := by
  intro c i
  have hdatum : decode ⟨c.word, c.data⟩ = (decode ⟨c.word, c.data⟩).map (·.withDatum c.data) := decode_datum ..
  constructor
  · intro h
    obtain ⟨hwf, hword⟩ := encodes_of_decode h
    rw [h] at hdatum
    exact ⟨hwf, hword, (Instr.withDatum_eq_self_iff _ i).mp (Option.some.inj hdatum).symm⟩
  · rintro ⟨hwf, hword, hdata⟩
    have hback : decode ⟨c.word, encodeData i⟩ = some i := by
      rw [← hword]
      exact (decodeOfEncode i).trans (if_pos hwf)
    calc decode c = (decode ⟨c.word, encodeData i⟩).map (·.withDatum c.data) := decode_datum ..
      _ = some (i.withDatum c.data) := by rw [hback]; rfl
      _ = some i := congrArg some ((Instr.withDatum_eq_self_iff _ i).mpr hdata)

/-- Settles O17: a change of datum is `withDatum` on the decoded command. -/
theorem datumReachesLdrAlone : Obligations.DatumReachesLdrAlone := by
  intro w d e
  rw [decode_datum w d e]
  refine ⟨Option.map_eq_none_iff.symm, fun i hi hne => ?_⟩
  have hself := (Instr.withDatum_eq_self_iff e i).mpr fun rd datum h => absurd h (hne rd datum)
  rw [hi, Option.map_some, hself]

/-- Settles O16: the transcribed columns are the model's rows, and two rows that match one word have its opcode. -/
theorem legalExactlyByTheTable : Obligations.LegalExactlyByTheTable := by
  rw [Obligations.LegalExactlyByTheTable, tableRows_eq]
  constructor
  · intro c
    simp only [decode_isSome_iff, Row.matches_iff_matchMask, List.mem_map, exists_exists_and_eq_and]
  · simp only [List.forall_mem_map, ← Row.matches_iff_matchMask]
    intro row h row' h' w hm hm'
    rw [Row.eq_of_matches h h' hm hm']

/-- Settles O18: a row that matched would have the reserved opcode. -/
theorem reservedOpcodesAreIllegal : Obligations.ReservedOpcodesAreIllegal := by
  intro c hreserved
  refine decode_eq_none_of_no_match fun row hmem hm => Row.not_reservedOpcode row hmem ?_
  rw [← ((row.matches_iff c.word).mp hm).1]
  exact hreserved

/-- Settles O12: each word is decoded by running the table. -/
theorem specWordsDecode : Obligations.SpecWordsDecode := by
  unfold Obligations.SpecWordsDecode
  decide

end

section
/-! One command answered: the response it gives, what it leaves, and the flags (10_state.md 5, 30_encoding.md 1 and 4,
60_exceptions.md 2). -/

namespace Sys2Proof.Machine

/-- From `s` to `t` one command was answered by `r`. A response other than `OK` carries zero and goes with no write
(R65, R203), and a flag that went up has its fault for the response (R28). -/
structure Replies (s t : State) (r : Response) : Prop where
  answered : Answered s t r.code r.data
  fault : r.code ≠ .ok → t.x = s.x ∧ r.data = 0
  raised : ∀ c, t.fsr.flag c = true → s.fsr.flag c = false → r = ⟨c.code, 0⟩

/-- An answer `OK` that raises no flag. -/
theorem replies_ok {s t : State} {d : Word} (h : Answered s t .ok d)
    (hflag : ∀ c, t.fsr.flag c = true → s.fsr.flag c = true) : Replies s t ⟨.ok, d⟩ :=
  ⟨h, absurd rfl, fun c hup hdown => absurd (hflag c hup) (ne_true_of_eq_false hdown)⟩

theorem replies_raise (s : State) (c : FaultCause) : Replies s (s.raise c) ⟨c.code, 0⟩ := by
  refine ⟨⟨rfl, rfl, rfl, rfl⟩, fun _ => ⟨rfl, rfl⟩, fun d hup hdown => ?_⟩
  by_cases hd : d = c
  · rw [hd]
  · rw [State.raise_fsr, Fsr.flag_raise_ne _ hd, hdown] at hup
    exact absurd hup (by decide)

theorem Ends.replies {i : Instr} {s t : State} (h : Ends i s t) : ∃ r, Replies s t r := by
  cases h with
  | completes rd v _ => exact ⟨_, replies_ok ⟨rfl, rfl, rfl, rfl⟩ fun _ => id⟩
  | faults c _ _ => exact ⟨_, replies_raise s c⟩
  | answers d _ _ => exact ⟨_, replies_ok ⟨rfl, rfl, rfl, rfl⟩ fun _ => id⟩
  | clears _ =>
    refine ⟨_, replies_ok ⟨rfl, rfl, rfl, rfl⟩ fun c hup => ?_⟩
    rw [State.respond_fsr, State.clearFsr_fsr, Fsr.flag_clear] at hup
    exact absurd hup (by decide)

/-- A command that is run, its word legal or not, is answered once. -/
theorem runCommand_replies {c : Command} {s t : State} (h : runCommand c s = .next t) : ∃ r, Replies s t r := by
  obtain ⟨i, u, -, hu, hends⟩ | ⟨-, hu⟩ := runCommand_cases c s <;> rw [hu] at h <;> cases h
  · exact hends.replies
  · exact ⟨_, replies_raise s .ill⟩

/-- Registers other than the destination keep their values (R23). -/
theorem Ends.readReg_eq {i : Instr} {s t : State} (h : Ends i s t) {q : Reg} (hq : i.dest ≠ some q) :
    t.readReg q = s.readReg q := by
  cases h with
  | completes rd v hd => exact State.readReg_complete_ne _ _ _ _ fun e => hq (e ▸ hd)
  | faults c _ _ => rfl
  | answers d _ _ => rfl
  | clears _ => rfl

/-- A fault moves its own flag only (R28). -/
theorem State.eq_of_flag_raise_ne {s : State} {c d : FaultCause} (h : (s.raise d).fsr.flag c ≠ s.fsr.flag c) :
    c = d := by
  by_contra hne
  exact h (Fsr.flag_raise_ne _ hne)

/-- A flag that a command changes: CLSR takes it down, or the command raises it and says so. -/
theorem Ends.flag_changes {i : Instr} {s t : State} (h : Ends i s t) {c : FaultCause}
    (hc : t.fsr.flag c ≠ s.fsr.flag c) :
    (i = .clsr ∧ t.fsr.flag c = false ∧ t.rsp = some ⟨.ok, 0⟩) ∨
      (i ≠ .clsr ∧ t.fsr.flag c = true ∧ t.rsp = some ⟨c.code, 0⟩) := by
  cases h with
  | completes rd v _ => exact absurd rfl hc
  | answers d _ _ => exact absurd rfl hc
  | clears hi => exact .inl ⟨hi, Fsr.flag_clear c, rfl⟩
  | faults d _ hdest =>
    obtain rfl := State.eq_of_flag_raise_ne hc
    exact .inr ⟨fun hi => hdest (hi ▸ rfl), Fsr.flag_raise_self _ _, rfl⟩

/-- The same for a word that is run, which need not be legal. -/
theorem runCommand_flag_changes {w : Command} {s t : State} (h : runCommand w s = .next t) {c : FaultCause}
    (hc : t.fsr.flag c ≠ s.fsr.flag c) :
    (decode w = some .clsr ∧ t.fsr.flag c = false ∧ t.rsp = some ⟨.ok, 0⟩) ∨
      (decode w ≠ some .clsr ∧ t.fsr.flag c = true ∧ t.rsp = some ⟨c.code, 0⟩) := by
  obtain ⟨i, u, hi, hu, hends⟩ | ⟨hi, hu⟩ := runCommand_cases w s <;> rw [hu] at h <;> cases h <;> rw [hi]
  · simpa using hends.flag_changes hc
  · obtain rfl := State.eq_of_flag_raise_ne hc
    exact .inr ⟨by simp, Fsr.flag_raise_self s.fsr .ill, rfl⟩

/-- An answer keeps the invariant, when the block is left with no command in flight. -/
theorem invariant_of_replies {s t : State} {r : Response} (hs : Invariant s) (h : Replies s t r)
    (hf : s.inFlight = none) : Invariant t := by
  obtain ⟨⟨hrsp, hresponses, hinFlight, -⟩, hfault, hraised⟩ := h
  refine ⟨fun q hq => ?_, fun hbusy => absurd (hinFlight.trans hf) hbusy, fun q hq hcode => ?_, fun c hup => ?_⟩
  · rw [hresponses, List.getLast?_concat, ← hrsp, hq]
  · rw [hresponses, List.mem_append, List.mem_singleton] at hq
    obtain hq | rfl := hq
    · exact hs.data q hq hcode
    · exact (hfault hcode).2
  · rw [hresponses]
    cases hdown : s.fsr.flag c with
    | true =>
      obtain ⟨q, hq, hcode⟩ := hs.flag c hdown
      exact ⟨q, List.mem_append_left _ hq, hcode⟩
    | false => exact ⟨r, List.mem_append_right _ (List.mem_singleton_self r), by rw [hraised c hup hdown]⟩

/-- The invariant looks neither at the host's events nor at a command in flight whose response has not come. -/
theorem invariant_quiet {s : State} (hs : Invariant s) (f : Option InFlight) (h : List HostEvent) :
    Invariant { s with inFlight := f, rsp := none, host := h } :=
  ⟨fun _ hr => absurd hr (by simp), fun _ => rfl, hs.data, hs.flag⟩

theorem invariant_idle {s : State} (hs : Invariant s) (h : List HostEvent) :
    Invariant { s with inFlight := none, host := h } :=
  ⟨hs.port, absurd rfl, hs.data, hs.flag⟩

theorem invariant_reset (h : List HostEvent) : Invariant { State.reset with host := h } where
  port _ hr := absurd hr (by simp [State.reset])
  busy := absurd rfl
  data _ hr := absurd hr (by simp [State.reset])
  flag c hup := absurd hup (by simp [State.reset])

/-- The invariant is kept by each of the three ways a step can move. -/
theorem Moves.invariant {s t : State} (h : Moves s t) (hs : Invariant s) : Invariant t := by
  cases h with
  | ran c rest t _ ht =>
    obtain ⟨r, hr⟩ := runCommand_replies ht
    exact invariant_of_replies (invariant_idle hs rest) hr rfl
  | reset rest _ => exact invariant_reset rest
  | quiet f rest _ => exact invariant_quiet hs f rest

/-- The same, read from a given outcome of a step. -/
theorem moves_of_step {s t : State} (h : step s = .next t) : Moves s t := by
  obtain ⟨u, hu, hm⟩ := step_moves s
  rw [hu] at h
  cases h
  exact hm

/-- A step with a command presented to a block that has none in flight runs that command. -/
theorem step_command {s : State} {c : Command} {rest : List HostEvent} (hf : s.inFlight = none)
    (hh : s.host = .command c :: rest) : step s = runCommand c { s with host := rest } := by
  simp only [step, nextEvent, hh, hf]

theorem runCommand_of_decode {c : Command} {i : Instr} (h : decode c = some i) (s : State) :
    runCommand c s = exec i s := by
  simp only [runCommand, h]

theorem runCommand_illegal {c : Command} (h : decode c = none) (s : State) :
    runCommand c s = .next (s.raise .ill) := by
  simp only [runCommand, h]

/-- A command that meets a fault of the table raises it. -/
theorem exec_of_faultMet_some {i : Instr} {s : State} {c : FaultCause} (h : faultMet i s = some c) :
    exec i s = .next (s.raise c) := by
  cases i
  case div rd a b | mod rd a b | divh rd a b | modh rd a b =>
    obtain ⟨hb, hc⟩ := Option.ite_none_right_eq_some.mp h
    exact congrArg Host.Outcome.next ((if_pos ((signedReg_eq_zero_iff s b).mpr hb)).trans (by cases hc; rfl))
  case sqrt rd a =>
    obtain ⟨ha, hc⟩ := Option.ite_none_right_eq_some.mp h
    exact congrArg Host.Outcome.next ((if_pos ((signedReg_neg_iff s a).mpr ha)).trans (by cases hc; rfl))
  case log2 rd a | ln rd a | log10 rd a =>
    obtain ⟨ha, hc⟩ := Option.ite_none_right_eq_some.mp h
    exact congrArg Host.Outcome.next ((if_pos ((signedReg_nonpos_iff s a).mpr ha)).trans (by cases hc; rfl))
  all_goals cases h

/-- A command that meets no fault of the table answers `OK`. -/
theorem endsOk_of_faultMet_none {i : Instr} {s : State} (h : faultMet i s = none) : EndsOk i s := by
  cases i
  case div rd a b | mod rd a b | divh rd a b | modh rd a b =>
    have hb : ¬s.readReg b = 0 := fun hb => by simp [faultMet, hb] at h
    exact endsOk_of_writes (writes_of_guard rfl (mt (signedReg_eq_zero_iff s b).mp hb))
  case sqrt rd a =>
    have ha : ¬(s.readReg a).msb = true := fun ha => by simp [faultMet, ha] at h
    exact endsOk_of_writes (writes_of_guard rfl (mt (signedReg_neg_iff s a).mp ha))
  case log2 rd a | ln rd a | log10 rd a =>
    have ha : ¬(s.readReg a = 0 ∨ (s.readReg a).msb = true) := fun ha => by
      rw [faultMet, if_pos ha] at h
      cases h
    exact endsOk_of_writes (writes_of_guard rfl (mt (signedReg_nonpos_iff s a).mp ha))
  all_goals exact neverFaultingCommands _ s (by simp) (by simp)

/-- A command raises one fault at most: it gives one response. -/
theorem faults_injective {i : Instr} {s : State} {c d : FaultCause} (h : Faults i s c) (h' : Faults i s d) :
    c = d := by
  obtain ⟨t, ht, -, -, -, hc⟩ := h
  obtain ⟨u, hu, -, -, -, hd⟩ := h'
  rw [ht] at hu
  cases hu
  have hrsp := hc.rsp.symm.trans hd.rsp
  exact FaultCause.code_injective (congrArg Response.code (Option.some.inj hrsp))

theorem not_faults_of_endsOk {i : Instr} {s : State} (h : EndsOk i s) (c : FaultCause) : ¬Faults i s c := by
  obtain ⟨t, d, ht, hok, -⟩ := h
  rintro ⟨u, hu, -, -, -, hc⟩
  rw [ht] at hu
  cases hu
  have hrsp := hc.rsp.symm.trans hok.rsp
  exact FaultCause.code_ne_ok c (congrArg Response.code (Option.some.inj hrsp))

/-- The table of R201 looks at the registers only. -/
theorem faultMet_raise (i : Instr) (s : State) (c : FaultCause) : faultMet i (s.raise c) = faultMet i s := by
  cases i <;> rfl

theorem Fsr.raise_raise (f : Fsr) (c : FaultCause) : (f.raise c).raise c = f.raise c := by
  cases c <;> rfl

/-- Two outcomes of one command with the same response and, when it completes, the same value in the destination. -/
def SameResult (i : Instr) (t v : State) : Prop :=
  t.rsp = v.rsp ∧ ∀ rd, i.dest = some rd → t.rsp = some ⟨.ok, 0⟩ → t.readReg rd = v.readReg rd

section SameResult
variable {i : Instr} {s u : State}

theorem sameResult_complete {rd : Reg} {a b : Word} (hd : i.dest = some rd) (h : a = b) :
    SameResult i (s.complete rd a) (u.complete rd b) := by
  subst h
  refine ⟨rfl, fun q hq _ => ?_⟩
  cases hd.symm.trans hq
  simp

theorem sameResult_respond {a b : Word} (hd : i.dest = none) (h : a = b) :
    SameResult i (s.respond .ok a) (u.respond .ok b) :=
  ⟨by rw [h]; rfl, fun q hq => by simp [hd] at hq⟩

theorem sameResult_raise (c : FaultCause) : SameResult i (s.raise c) (u.raise c) :=
  ⟨rfl, fun _ _ hok => absurd (congrArg Response.code (Option.some.inj hok)) (FaultCause.code_ne_ok c)⟩

theorem sameResult_guard {p q : Prop} [Decidable p] [Decidable q] {c : FaultCause} {rd : Reg} {a b : Word}
    (hd : i.dest = some rd) (hpq : p ↔ q) (h : a = b) :
    SameResult i (if p then s.raise c else s.complete rd a) (if q then u.raise c else u.complete rd b) := by
  by_cases hp : p
  · rw [if_pos hp, if_pos (hpq.mp hp)]
    exact sameResult_raise c
  · rw [if_neg hp, if_neg (mt hpq.mpr hp)]
    exact sameResult_complete hd h

theorem signedReg_congr {r : Reg} (h : s.readReg r = u.readReg r) : s.signedReg r = u.signedReg r :=
  congrArg BitVec.toInt h

/-- States that agree on a command's sources, and on `FSR` for RDSR, give the same result. -/
theorem exec_sameResult (hsrc : ∀ r ∈ i.sources, s.readReg r = u.readReg r) (hfsr : i = .rdsr → s.fsr = u.fsr) :
    ∃ t v, exec i s = .next t ∧ exec i u = .next v ∧ SameResult i t v := by
  cases i <;> refine ⟨_, _, rfl, rfl, ?_⟩
  case nop | clsr => exact ⟨rfl, fun _ hq => by cases hq⟩
  case rdr a => exact sameResult_respond rfl (hsrc a (by simp [Instr.sources]))
  case rdsr => exact sameResult_respond rfl (by rw [hfsr rfl])
  case ldr rd datum | ldhc rd imm12 => exact sameResult_complete rfl rfl
  case div rd a b | mod rd a b | divh rd a b | modh rd a b =>
    have ha := signedReg_congr (hsrc a (by simp [Instr.sources]))
    have hb := signedReg_congr (hsrc b (by simp [Instr.sources]))
    exact sameResult_guard rfl (by rw [hb]) (by rw [ha, hb])
  case sqrt rd a | log2 rd a | ln rd a | log10 rd a =>
    have ha := hsrc a (by simp [Instr.sources])
    exact sameResult_guard rfl (by rw [signedReg_congr ha]) (by rw [ha])
  case mov rd a | neg rd a | abs rd a | sqrtr rd a | exp rd a | sin rd a | cos rd a | tan rd a | asin rd a | acos rd a
      | atan rd a | f2xs rd a | f2xd rd a | i2x rd a | x2i rd a =>
    have ha := hsrc a (by simp [Instr.sources])
    exact sameResult_complete rfl (by simp only [ha, signedReg_congr ha])
  all_goals
    rename_i rd a b
    have ha := hsrc a (by simp [Instr.sources])
    have hb := hsrc b (by simp [Instr.sources])
    exact sameResult_complete rfl (by simp only [ha, hb, signedReg_congr ha, signedReg_congr hb])

end SameResult

end Sys2Proof.Machine

open Sys2Proof Sys2Proof.Machine

/-- Settles O3: a step answers a command, takes the reset state, or stays quiet, and each keeps the invariant. -/
theorem stepKeepsInvariant : Obligations.StepKeepsInvariant := fun _ _ hs h => (moves_of_step h).invariant hs

/-- Settles O52: the four ends of a command each answer once and write the destination only. -/
theorem everyCommandsFrame : Obligations.EveryCommandsFrame := by
  intro i s
  obtain ⟨t, ht, hends⟩ := exec_ends i s
  obtain ⟨r, hr⟩ := hends.replies
  exact ⟨t, r, ht, fun _ hq => hends.readReg_eq hq, hr.answered, hr.fault⟩

/-- Settles O53: the flags of a command by its end, those of a step by the command it answers. -/
theorem flagsMoveOnlyByFaultClsrReset : Obligations.FlagsMoveOnlyByFaultClsrReset := by
  refine ⟨fun i s t c h hc => ?_, fun s t c h => ?_⟩
  · obtain ⟨hi, hdown, -⟩ | hup := (ends_of_exec h).flag_changes hc
    · exact .inl ⟨hi, hdown⟩
    · exact .inr hup
  · cases moves_of_step h with
    | quiet f rest _ =>
      exact ⟨fun hup hdown => absurd hup (ne_true_of_eq_false hdown),
        fun hdown hup => absurd hup (ne_true_of_eq_false hdown)⟩
    | reset rest hr =>
      exact ⟨fun hup _ => absurd hup (ne_true_of_eq_false (Fsr.flag_clear c)), fun _ _ => .inl ⟨hr, rfl⟩⟩
    | ran w rest t hw ht =>
      refine ⟨fun hup hdown => ?_, fun hdown hup => ?_⟩ <;>
        obtain ⟨hclsr, hf, hrsp⟩ | ⟨hne, hf, hrsp⟩ :=
          runCommand_flag_changes (c := c) ht (by simp [hup, hdown])
      · exact absurd hup (ne_true_of_eq_false hf)
      · exact ⟨hrsp, w, hw, hne⟩
      · exact .inr ⟨w, hw, hclsr, hrsp⟩
      · exact absurd hf (ne_true_of_eq_false hdown)

/-- Settles O54: `faultMet` says which test of a command's meaning is met; where none is, the command answers `OK`. -/
theorem faultsExactlyAsTabulated : Obligations.FaultsExactlyAsTabulated := by
  intro i s c
  cases hmet : faultMet i s with
  | some d =>
    have hfaults := faults_of_raise (exec_of_faultMet_some hmet)
    rw [Option.some.injEq]
    exact ⟨fun h => faults_injective hfaults h, fun e => e ▸ hfaults⟩
  | none => exact ⟨fun h => absurd h (not_faults_of_endsOk (endsOk_of_faultMet_none hmet) c), fun e => by cases e⟩

/-- Settles O56: the state a fault leaves has the same registers, so the same test is met, and the flag is
up already. -/
theorem repeatedFaultLeavesOneBit : Obligations.RepeatedFaultLeavesOneBit := by
  intro i s t c hmet h
  rw [exec_of_faultMet_some hmet] at h
  cases h
  refine ⟨_, exec_of_faultMet_some ((faultMet_raise i s c).trans hmet), rfl, ?_, rfl, ?_⟩
  · exact Fsr.raise_raise s.fsr c
  · simp

/-- Settles O57: a command's result is built from the registers it reads. -/
theorem resultDependsOnSourcesOnly : Obligations.ResultDependsOnSourcesOnly := by
  intro i s u hsrc hfsr
  obtain ⟨t, v, ht, hv, hsame⟩ := exec_sameResult hsrc hfsr
  exact ⟨t, v, ht, hv, hsame⟩

end

section
/-! The command port (30_encoding.md 1, 70_reset_and_hazards.md): edges against whole commands, order, reset. -/

namespace Sys2Proof.Machine

/-- The state `s` with a command in flight, `n` edges before the one that answers it, and no response at the port. -/
def State.holding (s : State) (c : Command) (n : Nat) : State := { s with inFlight := some ⟨c, n⟩, rsp := none }

section Edges
variable {c : Command} {p : Pins} {ps : List Pins} {n : Nat} {s t : State}

theorem runEdges_cons_of_next (h : edge p s = .next t) : runEdges (p :: ps) s = runEdges ps t := by
  rw [runEdges, h]

theorem runEdges_singleton (h : edge p s = .next t) : runEdges [p] s = .next t := runEdges_cons_of_next h

/-- An edge with no reset, while a command is held. -/
theorem edge_holding (hp : p.rst = false) : edge p (s.holding c n) = tick ⟨c, n⟩ (s.holding c n) :=
  edge_busy hp rfl

/-- An edge that leaves a command held: it is in flight, or accepted at this edge, and has more edges to come. -/
theorem edge_eq_holding (h : edge p s = tick ⟨c, n + 1⟩ s) : edge p s = .next (s.holding c n) := h

/-- Fewer edges than the command in flight needs leave it held, and nothing else changed. -/
theorem runEdges_waits (h : edge p s = tick ⟨c, n⟩ s) (hps : ∀ q ∈ ps, q.rst = false) (hlen : ps.length < n) :
    ∃ k, runEdges (p :: ps) s = .next (s.holding c k) := by
  induction n generalizing s p ps with
  | zero => exact absurd hlen (Nat.not_lt_zero _)
  | succ n ih =>
    rw [runEdges_cons_of_next (edge_eq_holding h)]
    cases ps with
    | nil => exact ⟨n, rfl⟩
    | cons q qs =>
      have hq := edge_holding (s := s) (c := c) (n := n) (hps q List.mem_cons_self)
      exact ih hq (fun r hr => hps r (List.mem_cons_of_mem q hr)) (by simpa using hlen)

/-- The last of its edges runs the command in flight; the port is as it was or has been emptied meanwhile. -/
theorem runEdges_answers (h : edge p s = tick ⟨c, n⟩ s) (hps : ∀ q ∈ ps, q.rst = false) (hlen : ps.length = n) :
    ∃ r, (r = s.rsp ∨ r = none) ∧ runEdges (p :: ps) s = runCommand c { s with inFlight := none, rsp := r } := by
  induction n generalizing s p ps with
  | zero =>
    obtain rfl := List.eq_nil_of_length_eq_zero hlen
    obtain ⟨t, ht⟩ := runCommand_next c { s with inFlight := none }
    exact ⟨s.rsp, .inl rfl, (runEdges_singleton (h.trans ht)).trans ht.symm⟩
  | succ n ih =>
    rw [runEdges_cons_of_next (edge_eq_holding h)]
    cases ps with
    | nil => exact absurd hlen (Nat.succ_ne_zero n).symm
    | cons q qs =>
      have hq := edge_holding (s := s) (c := c) (n := n) (hps q List.mem_cons_self)
      obtain ⟨r, hr, hrun⟩ := ih hq (fun r hr => hps r (List.mem_cons_of_mem q hr)) (by simpa using hlen)
      exact ⟨r, .inr (hr.elim id id), hrun⟩

end Edges

/-- A block that is ready has neither a command in flight nor a response at the port (R62). -/
theorem cmdReady_iff (s : State) : s.cmdReady = true ↔ s.inFlight = none ∧ s.rsp = none := by
  simp [State.cmdReady]

/-- Running a machine for one step more, the first step known. -/
theorem run_succ_of_step {s t : State} (h : step s = .next t) (k : Nat) :
    Host.Core.run Sys2Proof.core (k + 1) s = Host.Core.run Sys2Proof.core k t := by
  have hcore : Sys2Proof.core.step s = .next t := h
  simp only [Host.Core.run, hcore]

end Sys2Proof.Machine

open Sys2Proof Sys2Proof.Machine

/-- Settles O9: the edges of an accepted command hold it and then run it, as the whole step does at once. -/
theorem edgesRefineCommandStep : Obligations.EdgesRefineCommandStep := by
  intro s p ps hready hrst hvalid hps hlen
  obtain ⟨hf, hrsp⟩ := (cmdReady_iff s).mp hready
  have hedge := edge_accepts hrst hvalid hready
  by_cases hlast : ps.length = Config.latencyExtra (opcodeField p.cmdWord)
  · obtain ⟨r, hr, hrun⟩ := runEdges_answers hedge hps hlast
    have hs : { s with inFlight := none, rsp := r } = s := by
      rw [hrsp, or_self] at hr
      rw [hr, ← hf, ← hrsp]
    rw [hs] at hrun
    obtain ⟨t, ht⟩ := runCommand_next ⟨p.cmdWord, p.cmdData⟩ s
    refine ⟨t, hrun.trans ht, ?_⟩
    rw [if_pos hlast]
    exact (step_command (s := { s with host := .command _ :: s.host }) hf rfl).trans ht
  · obtain ⟨k, hrun⟩ := runEdges_waits hedge hps (lt_of_le_of_ne hlen hlast)
    refine ⟨_, hrun, ?_⟩
    rw [if_neg hlast]
    exact ⟨rfl, rfl, rfl, rfl, rfl, rfl⟩

/-- Settles O10: by induction over the commands, each step taking one off the list and answering it. -/
theorem commandsAnsweredInOrder : Obligations.CommandsAnsweredInOrder := by
  intro cs rest
  induction cs with
  | nil =>
    intro s hf hh
    refine ⟨[], rfl, fun k hk => ?_⟩
    obtain rfl := Nat.le_zero.mp hk
    exact ⟨s, rfl, hf, hh, by simp⟩
  | cons c cs ih =>
    intro s hf hh
    obtain ⟨t, ht⟩ := runCommand_next c { s with host := cs.map .command ++ rest }
    have hstep : step s = .next t := (step_command hf hh).trans ht
    obtain ⟨r, ⟨-, hresponses, hinFlight, hhost⟩, -, -⟩ := runCommand_replies ht
    obtain ⟨rs, hlen, hrs⟩ := ih t (hinFlight.trans hf) hhost
    refine ⟨r :: rs, by simp [hlen], fun k hk => ?_⟩
    cases k with
    | zero => exact ⟨s, rfl, hf, hh, by simp⟩
    | succ k =>
      obtain ⟨u, hrun, hu, huhost, huresponses⟩ := hrs k (Nat.le_of_succ_le_succ hk)
      refine ⟨u, (run_succ_of_step hstep k).trans hrun, hu, huhost, ?_⟩
      rw [huresponses, hresponses, List.append_assoc]
      rfl

/-- Settles O11: every step ends in a next state, and the edges left to a command end in its response. -/
theorem everyAcceptedCommandIsAnswered : Obligations.EveryAcceptedCommandIsAnswered := by
  refine ⟨fun s => ?_, fun s f ps hf hlen hps => ?_⟩
  · obtain ⟨t, ht, -⟩ := step_moves s
    exact ⟨t, ht⟩
  · cases ps with
    | nil => cases hlen
    | cons p ps =>
      obtain ⟨hp, hps⟩ := List.forall_mem_cons.mp hps
      obtain ⟨r, -, hrun⟩ := runEdges_answers (edge_busy hp hf) hps (Nat.succ.inj hlen)
      obtain ⟨t, ht⟩ := runCommand_next f.command { s with inFlight := none, rsp := r }
      obtain ⟨q, ⟨hrsp, hresponses, hinFlight, -⟩, -, -⟩ := runCommand_replies ht
      exact ⟨t, q, hrun.trans ht, hinFlight, hrsp, hresponses⟩

/-- Settles O1: every field of the reset state by its definition. -/
theorem resetStateAsListed : Obligations.ResetStateAsListed :=
  ⟨State.readReg_applyReset State.reset, Fsr.toWord_clear, rfl, rfl, rfl⟩

/-- Settles O2: no response, no command in flight and no flag. -/
theorem resetMeetsInvariant : Obligations.ResetMeetsInvariant := invariant_reset []

/-- Settles O4: the step runs the decoded command, which is well formed because its word spells it. -/
theorem stepExecutesPresentedCommand : Obligations.StepExecutesPresentedCommand := fun _ _ _ _ hf hh hd =>
  ⟨(encodes_of_decode hd).1, (step_command hf hh).trans (runCommand_of_decode hd _)⟩

/-- Settles O5: `withFetchWord` presents the word to a block with no command in flight. -/
theorem fetchWordIsExecutedNext : Obligations.FetchWordIsExecutedNext := fun s _ _ _ hd =>
  (step_command (s := presentNext _ s) rfl rfl).trans (runCommand_of_decode hd _)

/-- Settles O6: an illegal word raises `ILL`. -/
theorem illegalWordRaisesIllOnly : Obligations.IllegalWordRaisesIllOnly := fun _ _ _ hf hh hd =>
  ⟨_, (step_command hf hh).trans (runCommand_illegal hd _), rfl, rfl, fun _ hne => Fsr.flag_raise_ne _ hne,
    rfl, rfl, rfl, rfl⟩

/-- Settles O7: reset comes before everything at an edge. -/
theorem resetEdgeGivesResetState : Obligations.ResetEdgeGivesResetState := by
  intro s p rest hh hr
  have hstep : step s = edge p { s with host := rest } := by simp only [step, nextEvent, hh]
  exact hstep.trans (edge_reset hr)

/-- Settles O8: while not ready an edge goes on with the command in flight, or ends the response cycle; and idle it
only ends the pulse. -/
theorem commandPinsCountOnlyWhenReady : Obligations.CommandPinsCountOnlyWhenReady := by
  intro s p q hp hq
  refine ⟨fun hbusy => ?_, fun hf hv => ?_⟩
  · obtain hf | ⟨f, hf⟩ := Option.eq_none_or_eq_some s.inFlight
    · have hnot : ∀ r : Pins, ¬(r.cmdValid = true ∧ s.cmdReady = true) := fun r h => ne_true_of_eq_false hbusy h.2
      rw [edge_idles hp hf (hnot p), edge_idles hq hf (hnot q)]
    · rw [edge_busy hp hf, edge_busy hq hf]
  · exact ⟨_, edge_idles hp hf fun h => ne_true_of_eq_false hv h.1, rfl, rfl, hf, rfl, rfl⟩

end

section
/-! Data movement, scalar arithmetic and comparison (40_scalar_arith.md, 41_compare.md, 45_system.md). -/

namespace Sys2Proof.Machine

/-- Wrapping a register's signed value gives the register. -/
theorem wrap64_signedReg (s : State) (r : Reg) : wrap64 (s.signedReg r) = s.readReg r := wrap64_toInt _

/-- The product of two 64-bit values, and its sum with the rounding bias, are far inside 128 bits. -/
theorem mul_toInt_bounds (a b : Word) : -2 ^ 126 ≤ a.toInt * b.toInt ∧ a.toInt * b.toInt ≤ 2 ^ 126 := by
  have ha : |a.toInt| ≤ 2 ^ 63 := abs_le.mpr ⟨a.le_toInt, a.toInt_lt.le⟩
  have hb : |b.toInt| ≤ 2 ^ 63 := abs_le.mpr ⟨b.le_toInt, b.toInt_lt.le⟩
  have hab : |a.toInt * b.toInt| ≤ 2 ^ 63 * 2 ^ 63 := by
    rw [abs_mul]
    exact mul_le_mul ha hb (abs_nonneg _) (by norm_num)
  exact abs_le.mp (by simpa [← pow_add] using hab)

/-- The arithmetic right shift of a bit vector is `asr` of its signed value. -/
theorem toInt_sshiftRight_eq_asr {w : Nat} (v : BitVec w) (k : Nat) : (v.sshiftRight k).toInt = asr v.toInt k := by
  rw [BitVec.toInt_sshiftRight, Int.shiftRight_eq_div_pow, asr]
  norm_cast

/-- The 128-bit product is exact. -/
theorem toInt_product128 (a b : Word) : (product128 a b).toInt = a.toInt * b.toInt := by
  obtain ⟨h1, h2⟩ := mul_toInt_bounds a b
  rw [product128, BitVec.toInt_mul, BitVec.toInt_signExtend_of_le (by norm_num),
    BitVec.toInt_signExtend_of_le (by norm_num)]
  apply Int.bmod_eq_of_le <;> norm_num at * <;> omega

/-- So is its sum with the rounding bias. -/
theorem toInt_product128_add_bias (a b : Word) : (product128 a b + 0x8000).toInt = a.toInt * b.toInt + half := by
  obtain ⟨h1, h2⟩ := mul_toInt_bounds a b
  have hbias : (0x8000 : BitVec 128).toInt = half := by decide
  rw [BitVec.toInt_add, toInt_product128, hbias, half]
  apply Int.bmod_eq_of_le <;> norm_num at * <;> omega

/-- What MUL and MULT write when the shifted product fits 64 bits (R86, R88). -/
theorem toInt_mulValue {a b : Int} (h1 : -2 ^ 79 ≤ a * b) (h2 : a * b + 2 ^ 15 < 2 ^ 79) :
    (mulValue productWidth a b).toInt = (a * b + 32768) / 65536 := by
  apply toInt_wrap64_of_fits <;> norm_num [asr, half] at * <;> omega

theorem toInt_multValue {a b : Int} (h1 : -2 ^ 79 ≤ a * b) (h2 : a * b + 2 ^ 15 < 2 ^ 79) :
    (multValue productWidth a b).toInt = a * b / 65536 := by
  apply toInt_wrap64_of_fits <;> norm_num [asr] at * <;> omega

/-- The product of usable operands (R82). -/
theorem usable_mul_bounds {v w : Word} (hv : usable v) (hw : usable w) :
    -2 ^ 62 ≤ v.toInt * w.toInt ∧ v.toInt * w.toInt ≤ 2 ^ 62 := by
  have h1 : |v.toInt| ≤ 2 ^ 31 := abs_le.mpr ⟨hv.1, by linarith [hv.2]⟩
  have h2 : |w.toInt| ≤ 2 ^ 31 := abs_le.mpr ⟨hw.1, by linarith [hw.2]⟩
  have h : |v.toInt * w.toInt| ≤ 2 ^ 31 * 2 ^ 31 := by
    rw [abs_mul]
    exact mul_le_mul h1 h2 (abs_nonneg _) (by norm_num)
  exact abs_le.mp (by simpa [← pow_add] using h)

/-- The 64-bit product is the exact one where it fits (R87 a). -/
theorem mulValue_eq_of_fits {a b : Int} (h1 : -2 ^ 63 ≤ a * b + half) (h2 : a * b + half < 2 ^ 63)
    (width : Config.ProductWidth) : mulValue width a b = mulValue productWidth a b := by
  cases width
  · rfl
  · simp only [mulValue, productWidth, toInt_wrap64_of_fits h1 h2]

theorem multValue_eq_of_fits {a b : Int} (h1 : -2 ^ 63 ≤ a * b) (h2 : a * b < 2 ^ 63)
    (width : Config.ProductWidth) : multValue width a b = multValue productWidth a b := by
  cases width
  · rfl
  · simp only [multValue, productWidth, toInt_wrap64_of_fits h1 h2]

/-- Shifting a 64-bit residue right by 16 gives the low 64 bits of shifting the number itself exactly when bits 79:63
of the number are equal (log entry 20). -/
theorem wrap64_shifted_residue_iff (n : Int) : wrap64 (asr n 16) = wrap64 (asr (wrap64 n).toInt 16) ↔
    -2 ^ 63 ≤ n.bmod (2 ^ 80) ∧ n.bmod (2 ^ 80) < 2 ^ 63 := by
  rw [wrap64_eq_iff, toInt_wrap64]
  norm_num [asr, Int.bmod]
  omega

/-- Multiplying by `ONE` shifts left by 16, which the arithmetic shift undoes, bias or not. -/
theorem mulValue_one (a : Int) : mulValue productWidth a one.toInt = wrap64 a := by
  have h : asr (a * 65536 + half) 16 = a := by
    norm_num [asr, half]
    omega
  exact congrArg wrap64 h

theorem multValue_one (a : Int) : multValue productWidth a one.toInt = wrap64 a := by
  have h : asr (a * 65536) 16 = a := by
    norm_num [asr]
  exact congrArg wrap64 h

theorem mulValue_comm (w : Config.ProductWidth) (a b : Int) : mulValue w a b = mulValue w b a := by
  cases w <;> simp only [mulValue, Int.mul_comm a b]

/-- DIV as the 64-bit datapath (decisions D11, D12). -/
theorem divValue_eq_sdiv (a b : Word) : divValue divWide divRound a.toInt b.toInt = (a <<< 16).sdiv b := by
  apply BitVec.eq_of_toInt_eq
  rw [divValue, shiftedDividend_divWide, divRound, quotient_towardZero, toInt_wrap64, BitVec.toInt_sdiv]

/-- MOD as the 64-bit datapath (decision D12). -/
theorem modValue_eq_srem (a b : Word) : modValue divRound a.toInt b.toInt = a.srem b := by
  rw [modValue, divRound, remainder_towardZero, ← BitVec.toInt_srem, wrap64_toInt]

/-- The shifted dividend of `-2^47 <= A < 2^47` fits 64 bits, so DIV's two widths are the same (R91). -/
theorem shiftedDividend_of_fits {a : Int} (h1 : -2 ^ 47 ≤ a) (h2 : a < 2 ^ 47) (wide : Bool) :
    shiftedDividend wide a = a * 65536 := by
  cases wide
  · exact toInt_wrap64_of_fits (by norm_num [shl] at *; omega) (by norm_num [shl] at *; omega)
  · rfl

/-- The one quotient of 64-bit numbers that does not fit is `-2^63 / -1`. -/
theorem tdiv_fits {n d : Int} (h1 : -2 ^ 63 ≤ n) (h2 : n < 2 ^ 63) (hd : d ≠ 0) (h : ¬(n = -2 ^ 63 ∧ d = -1)) :
    -2 ^ 63 ≤ n.tdiv d ∧ n.tdiv d < 2 ^ 63 := by
  obtain ⟨hle, hmul, -, hsign⟩ := tdiv_laws n d hd
  have hn : |n| ≤ 2 ^ 63 := abs_le.mpr ⟨h1, h2.le⟩
  obtain ⟨hlo, hhi⟩ := abs_le.mp (hle.trans hn)
  refine ⟨hlo, lt_of_le_of_ne hhi fun hq => h ?_⟩
  rw [hq, abs_mul, abs_of_pos (by norm_num : (0 : Int) < 2 ^ 63)] at hmul
  rw [hq] at hsign
  obtain ⟨hd1, hd2⟩ := abs_le.mp (show |d| ≤ 1 by omega)
  obtain rfl | rfl : d = 1 ∨ d = -1 := by omega
  · rw [abs_of_nonneg (by omega : 0 ≤ n)] at hmul
    norm_num at hmul
    omega
  · rw [abs_of_nonpos (by omega : n ≤ 0)] at hmul
    norm_num at hmul
    omega

/-- The signed remainder in magnitude and sign. -/
theorem abs_tmod_lt (a : Int) {b : Int} (hb : b ≠ 0) : |a.tmod b| < |b| := by
  rw [← Int.natCast_natAbs, ← Int.natCast_natAbs, Int.natAbs_tmod]
  exact_mod_cast Nat.mod_lt _ (Int.natAbs_pos.mpr hb)

theorem tmod_mul_nonneg (a b : Int) : 0 ≤ a.tmod b * a := by
  rw [← Int.sign_nonneg_iff, Int.sign_mul, Int.sign_tmod]
  split
  · simp
  · exact mul_self_nonneg _

/-- Logical values are ordered as raw values are (R18). -/
theorem logical_lt_iff (v w : Word) : logical v < logical w ↔ v.toInt < w.toInt := by
  rw [logical, logical, div_lt_div_iff_of_pos_right (by norm_num), Int.cast_lt]

theorem logical_eq_iff (v w : Word) : logical v = logical w ↔ v.toInt = w.toInt := by
  rw [logical, logical, div_left_inj' (by norm_num), Int.cast_inj]

/-- The exact product of logical values (R18). -/
theorem logical_mul_logical (v w : Word) : logical v * logical w = ((v.toInt * w.toInt : Int) : ℚ) / 65536 ^ 2 := by
  rw [logical, logical, Int.cast_mul]
  ring

/-- A raw value that is a floor at scale 2^-16: the logical value is at most one ulp below what was floored. -/
theorem logical_floor_bounds {v : Word} {n : Int} (h : v.toInt = n / 65536) :
    logical v ≤ (n : ℚ) / 65536 ^ 2 ∧ (n : ℚ) / 65536 ^ 2 < logical v + 1 / 65536 := by
  have h1 : ((v.toInt * 65536 : Int) : ℚ) ≤ n := by
    rw [Int.cast_le]
    omega
  have h2 : (n : ℚ) < ((v.toInt + 1) * 65536 : Int) := by
    rw [Int.cast_lt]
    omega
  push_cast at h1 h2
  rw [logical]
  constructor <;> linarith

/-- The shift by 63 copies the sign bit everywhere, so that ABS negates or leaves (R94). -/
theorem absValue_eq (v : Word) : absValue v = if v.toInt < 0 then -v else v := by
  have hshift := toInt_sshiftRight_eq_asr v 63
  have hlo := v.le_toInt
  have hhi := v.toInt_lt
  split
  next hneg =>
    have hm : v.sshiftRight 63 = BitVec.allOnes 64 := BitVec.eq_of_toInt_eq (by
      rw [hshift, asr, BitVec.toInt_allOnes]
      norm_num at *
      omega)
    rw [absValue, hm, BitVec.xor_allOnes, BitVec.neg_eq_not_add, BitVec.sub_eq_add_neg]
    rfl
  next hpos =>
    have hm : v.sshiftRight 63 = 0 := BitVec.eq_of_toInt_eq (by
      rw [hshift, asr, BitVec.ofNat_eq_ofNat, BitVec.toInt_zero]
      norm_num at *
      omega)
    rw [absValue, hm]
    simp

/-- Choosing by the signed comparison gives the minimum and the maximum (R95, R96). -/
theorem toInt_ite_lt (v w : Word) : (if v.toInt < w.toInt then v else w).toInt = min v.toInt w.toInt := by
  split
  next h => exact (min_eq_left h.le).symm
  next h => exact (min_eq_right (not_lt.mp h)).symm

theorem toInt_ite_gt (v w : Word) : (if v.toInt > w.toInt then v else w).toInt = max v.toInt w.toInt := by
  split
  next h => exact (max_eq_left h.le).symm
  next h => exact (max_eq_right (not_lt.mp h)).symm

end Sys2Proof.Machine

open Sys2Proof Sys2Proof.Machine

/-- Settles O19: two commands complete with a value at hand, two answer with one. -/
theorem dataMovement : Obligations.DataMovement := fun _ _ _ _ =>
  ⟨writes_of_complete rfl rfl, writes_of_complete rfl rfl, reads_of_respond rfl, reads_of_respond rfl⟩

/-- Settles O20: `FSR` as read, bit by bit, and with every flag down. -/
theorem statusReadAndClear : Obligations.StatusReadAndClear := by
  intro s
  have hbit := Fsr.toWord_getLsbD s.fsr
  have hcleared : Reads .rdsr (s.clearFsr.respond .ok 0) 0 :=
    reads_of_respond (congrArg (fun d => Host.Outcome.next (State.respond _ .ok d)) Fsr.toWord_clear)
  refine ⟨⟨_, reads_of_respond rfl, hbit 0, hbit 1, hbit 2, fun k hk => ?_⟩,
    _, rfl, rfl, Fsr.flag_clear, ⟨rfl, rfl, rfl, rfl⟩, hcleared⟩
  obtain ⟨k, rfl⟩ := Nat.exists_eq_add_of_le' hk
  exact hbit (k + 3)

/-- Settles O21: wrapping is a ring homomorphism. -/
theorem addSubWrap : Obligations.AddSubWrap := fun s _ a b =>
  ⟨writes_of_complete rfl (by rw [wrap64_add, wrap64_signedReg, wrap64_signedReg]),
    writes_of_complete rfl (by rw [wrap64_sub, wrap64_signedReg, wrap64_signedReg])⟩

/-- Settles O22: the 128-bit datapath holds the exact product, with and without the bias. -/
theorem multiplyDatapath : Obligations.MultiplyDatapath := by
  intro s rd a b
  constructor <;> refine writes_of_complete rfl ?_ <;>
    rw [setWidth_eq_wrap64 _ (by norm_num), toInt_sshiftRight_eq_asr]
  · rw [toInt_product128_add_bias]
    rfl
  · rw [toInt_product128]
    rfl

/-- Settles O23: the products fit, so each result is the floor of its datapath at either width. -/
theorem usableProductsAreExact : Obligations.UsableProductsAreExact := by
  intro s rd a b ha hb
  obtain ⟨hlo, hhi⟩ : -2 ^ 62 ≤ s.signedReg a * s.signedReg b ∧ s.signedReg a * s.signedReg b ≤ 2 ^ 62 :=
    usable_mul_bounds ha hb
  have hprod : logical (s.readReg a) * logical (s.readReg b) =
      ((s.signedReg a * s.signedReg b : Int) : ℚ) / 65536 ^ 2 := logical_mul_logical _ _
  obtain ⟨hmul1, hmul2⟩ := logical_floor_bounds
    (toInt_mulValue (a := s.signedReg a) (b := s.signedReg b) (by omega) (by omega))
  have hmult := logical_floor_bounds
    (toInt_multValue (a := s.signedReg a) (b := s.signedReg b) (by omega) (by omega))
  rw [Int.cast_add, add_div, ← hprod] at hmul1 hmul2
  rw [← hprod] at hmult
  obtain ⟨hmult1, hmult2⟩ := hmult
  refine ⟨_, _, writes_of_complete rfl rfl, writes_of_complete rfl rfl, ⟨?_, ?_⟩, ⟨?_, hmult1⟩, fun width =>
    ⟨mulValue_eq_of_fits ?_ ?_ width, multValue_eq_of_fits ?_ ?_ width⟩⟩
  · norm_num at hmul2 ⊢
    linarith
  · norm_num at hmul1 ⊢
    linarith
  · linarith
  all_goals norm_num [half]; omega

/-- Settles O24: both widths shift the same number, one of them its 64-bit residue. -/
theorem productWidthsAgreeExactly : Obligations.ProductWidthsAgreeExactly := fun _ _ =>
  ⟨wrap64_shifted_residue_iff _, fun h1 h2 => (mulValue_eq_of_fits h1 h2 .wrapped64).symm⟩

/-- Refutes O25: 2^40 times 2^40 gives zero at both widths (vector V-MUL-17). -/
theorem not_productWidthsAgreeOnlyInRange : ¬Obligations.ProductWidthsAgreeOnlyInRange := by
  intro h
  obtain ⟨-, hlt⟩ := h 0x10000000000 0x10000000000 (by decide)
  exact absurd hlt (by decide)

/-- Settles O26: `ONE` by its shift, the order by commutativity, and the ulp by the two floors. -/
theorem multiplyLaws : Obligations.MultiplyLaws := by
  intro s rd a b
  refine ⟨fun hone => ?_, ?_, fun h1 h2 => ?_⟩
  · have hb : s.signedReg b = one.toInt := congrArg BitVec.toInt hone
    exact ⟨writes_of_complete rfl (by rw [hb, mulValue_one, wrap64_signedReg]),
      writes_of_complete rfl (by rw [hb, multValue_one, wrap64_signedReg])⟩
  · exact ⟨_, writes_of_complete rfl rfl, writes_of_complete rfl (mulValue_comm _ _ _)⟩
  · refine ⟨_, _, writes_of_complete rfl rfl, writes_of_complete rfl rfl, ?_⟩
    rw [toInt_mulValue h1 h2, toInt_multValue h1 h2]
    omega

/-- Settles O27: by the two datapath equations. -/
theorem divideDatapath : Obligations.DivideDatapath := fun _ rd _ _ hb =>
  ⟨writes_of_complete (exec_div_of_ne rd _ _ hb) (divValue_eq_sdiv _ _),
    writes_of_complete (exec_mod_of_ne rd _ _ hb) (modValue_eq_srem _ _)⟩

/-- Settles O28: the dividend fits at either width, and so does every quotient but `-2^63 / -1`. -/
theorem divideRoundsTowardZero : Obligations.DivideRoundsTowardZero := by
  intro s rd a b hb
  have hb' : s.signedReg b ≠ 0 := mt (signedReg_eq_zero_iff s b).mp hb
  refine ⟨fun h1 h2 hne => ?_, fun ha hb1 => ?_⟩
  · have hdividend := shiftedDividend_of_fits h1 h2
    refine ⟨(hdividend true).trans (hdividend false).symm, _, writes_of_complete (exec_div_of_ne rd a b hb) rfl, ?_⟩
    obtain ⟨-, hle, hlt, hsign⟩ := tdiv_laws (s.signedReg a * 65536) (s.signedReg b) hb'
    obtain ⟨hlo, hhi⟩ := tdiv_fits (n := s.signedReg a * 65536) (by omega) (by omega) hb' (by omega)
    rw [divValue, hdividend, divRound, quotient_towardZero, toInt_wrap64_of_fits hlo hhi]
    exact ⟨hle, hlt, by linarith⟩
  · refine writes_of_complete (exec_div_of_ne rd a b hb) ?_
    rw [ha, hb1]
    decide

/-- Settles O29: the signed remainder is smaller than the divisor and so is not wrapped. -/
theorem moduloLaws : Obligations.ModuloLaws := by
  intro s rd a b hb
  have hb' : s.signedReg b ≠ 0 := mt (signedReg_eq_zero_iff s b).mp hb
  have hv : ((s.readReg a).srem (s.readReg b)).toInt = (s.signedReg a).tmod (s.signedReg b) := BitVec.toInt_srem _ _
  refine ⟨_, writes_of_complete (exec_mod_of_ne rd a b hb) (modValue_eq_srem _ _), ?_⟩
  rw [hv]
  exact ⟨Int.dvd_self_sub_tmod, abs_tmod_lt _ hb', tmod_mul_nonneg _ _⟩

/-- Settles O30: NEG and ABS wrap, MIN and MAX choose by the signed comparison. -/
theorem signAndExtrema : Obligations.SignAndExtrema := by
  intro s rd a b
  refine ⟨writes_of_complete rfl ?_, writes_of_complete rfl (absValue_eq _),
    ⟨_, writes_of_complete rfl rfl, toInt_ite_lt _ _⟩, ⟨_, writes_of_complete rfl rfl, toInt_ite_gt _ _⟩⟩
  rw [wrap64_neg, wrap64_signedReg]

/-- Settles O31: saturation as an integer. -/
theorem saturatingForms : Obligations.SaturatingForms := fun _ _ _ _ =>
  ⟨⟨_, writes_of_complete rfl rfl, toInt_sat64 _⟩, ⟨_, writes_of_complete rfl rfl, toInt_sat64 _⟩,
    ⟨_, writes_of_complete rfl rfl, toInt_sat64 _⟩⟩

/-- Settles O32: the signed comparators compare signed values. -/
theorem compareDatapath : Obligations.CompareDatapath := by
  intro s rd a b
  simp only [BitVec.slt_iff_toInt_lt, BitVec.sle_iff_toInt_le, beq_iff_eq, bne_iff_ne]
  exact ⟨writes_of_complete rfl (outcomeWord_decide _), writes_of_complete rfl (outcomeWord_decide _),
    writes_of_complete rfl (outcomeWord_decide _), writes_of_complete rfl (outcomeWord_decide _),
    writes_of_complete rfl (outcomeWord_decide _), writes_of_complete rfl (outcomeWord_decide _)⟩

/-- Settles O33: logical values are ordered as the raw values are, and raw values are equal as their bits are. -/
theorem compareOrdersLogicalValues : Obligations.CompareOrdersLogicalValues := by
  intro s rd a b
  refine ⟨_, _, _, writes_of_complete rfl (outcomeWord_decide _), writes_of_complete rfl (outcomeWord_decide _),
    writes_of_complete rfl (outcomeWord_decide _), ?_⟩
  rw [logical_lt_iff, logical_eq_iff, logical_lt_iff]
  have heq : s.readReg a = s.readReg b ↔ s.signedReg a = s.signedReg b := BitVec.toInt_inj.symm
  obtain h | h | h := lt_trichotomy (s.signedReg a) (s.signedReg b)
  · exact .inl ⟨h, if_pos h, if_neg (mt heq.mp h.ne), if_neg h.not_gt⟩
  · exact .inr (.inl ⟨h, if_neg h.not_lt, if_pos (heq.mpr h), if_neg h.not_gt⟩)
  · exact .inr (.inr ⟨h, if_neg h.not_gt, if_neg (mt heq.mp h.ne'), if_pos h⟩)

end

section
/-! The high-precision divisor and the commands built on it (43_hp_divisor.md, 42_transcendental.md 3). -/

namespace Sys2Proof.Machine

/-- A power of two as a bit vector is the one of the integer. -/
theorem twoPow_eq_ofInt (w k : Nat) : BitVec.twoPow w k = BitVec.ofInt w (2 ^ k) := by
  have hcast : (2 : Int) ^ k = ((2 ^ k : Nat) : Int) := by norm_cast
  rw [hcast, BitVec.ofInt_natCast]
  exact BitVec.eq_of_toNat_eq (by rw [BitVec.toNat_twoPow, BitVec.toNat_ofNat])

/-- Shifting a widened value left is `shl` of its signed value, cut to the width. -/
theorem signExtend_shiftLeft_eq_ofInt (v : Word) {w : Nat} (k : Nat) (h : 64 ≤ w) :
    v.signExtend w <<< k = BitVec.ofInt w (shl v.toInt k) := by
  rw [BitVec.shiftLeft_eq_mul_twoPow, twoPow_eq_ofInt, shl, BitVec.ofInt_mul,
    ← BitVec.toInt_signExtend_of_le (x := v) h, BitVec.ofInt_toInt]

/-- A 64-bit value widened to `w` bits and shifted left by `k` keeps all its bits when `64 + k ≤ w`. -/
theorem toInt_signExtend_shl (v : Word) {w k : Nat} (h : 64 + k ≤ w) :
    (v.signExtend w <<< k).toInt = shl v.toInt k := by
  have hbound : (2 : Int) ^ 63 * 2 ^ k ≤ 2 ^ (w - 1) := by
    rw [← pow_add]
    exact pow_le_pow_right₀ (by norm_num) (by omega)
  have hpos : (0 : Int) < 2 ^ k := by positivity
  have hlo : -(2 ^ 63 * 2 ^ k) ≤ v.toInt * 2 ^ k := by
    rw [← neg_mul]
    exact mul_le_mul_of_nonneg_right v.le_toInt hpos.le
  have hhi := mul_lt_mul_of_pos_right v.toInt_lt hpos
  rw [signExtend_shiftLeft_eq_ofInt v k (by omega)]
  exact BitVec.toInt_ofInt_eq_self (by omega) ((neg_le_neg hbound).trans hlo) (hhi.trans_le hbound)

/-- The low 64 bits of a residue modulo 2^w, for w at least 64, are those of the number itself. -/
theorem wrap64_bmod (n : Int) {w : Nat} (h : 64 ≤ w) : wrap64 (n.bmod (2 ^ w)) = wrap64 n := by
  apply BitVec.eq_of_toInt_eq
  rw [toInt_wrap64, toInt_wrap64, Int.bmod_bmod_of_dvd]
  exact_mod_cast Nat.pow_dvd_pow 2 h

/-- DIVH as the 96-bit datapath (R164). -/
theorem divhValue_eq_datapath (a h : Word) : divhValue a.toInt h.toInt =
    ((a.signExtend 96 <<< 32).sdiv (h.signExtend 96)).setWidth 64 := by
  rw [setWidth_eq_wrap64 _ (by norm_num), BitVec.toInt_sdiv, toInt_signExtend_shl a (by norm_num),
    BitVec.toInt_signExtend_of_le (by norm_num), wrap64_bmod _ (by norm_num)]
  rfl

/-- MODH as the 80-bit datapath (R165). -/
theorem modhValue_eq_datapath (a h : Word) : modhValue a.toInt h.toInt =
    (((a.signExtend 80 <<< 16).srem (h.signExtend 80)).sshiftRight 16).setWidth 64 := by
  rw [setWidth_eq_wrap64 _ (by norm_num), toInt_sshiftRight_eq_asr, BitVec.toInt_srem,
    toInt_signExtend_shl a (by norm_num), BitVec.toInt_signExtend_of_le (by norm_num), modhValue, divRound,
    remainder_towardZero]

/-- MODH's value: the remainder is smaller than the modulus, so what is shifted out of it fits (R165). -/
theorem toInt_modhValue (a : Int) {h : Int} (h0 : h ≠ 0) (h1 : -2 ^ 63 ≤ h) (h2 : h < 2 ^ 63) :
    (modhValue a h).toInt = (shl a 16).tmod h / 65536 ∧ |(shl a 16).tmod h| < |h| := by
  have hlt := abs_tmod_lt (shl a 16) h0
  have hle : |h| ≤ 2 ^ 63 := abs_le.mpr ⟨h1, h2.le⟩
  obtain ⟨hlo, hhi⟩ := abs_lt.mp (hlt.trans_le hle)
  refine ⟨?_, hlt⟩
  rw [modhValue, divRound, remainder_towardZero]
  apply toInt_wrap64_of_fits <;> norm_num [asr] at * <;> omega

/-- Dropping the low 16 bits rounds a negative number away from zero, by less than one ulp. -/
theorem abs_ediv_mul_le (r : Int) : |r / 65536| * 65536 ≤ |r| + 65536 := by
  obtain ⟨h1, h2⟩ := abs_le.mp (le_refl |r|)
  calc |r / 65536| * 65536 = |r / 65536 * 65536| := by rw [abs_mul, abs_of_pos (by norm_num : (0 : Int) < 65536)]
    _ ≤ |r| + 65536 := abs_le.mpr ⟨by omega, by omega⟩

/-- DIVH of a non-negative dividend by a positive divisor, when the quotient fits, is the floor (R166). -/
theorem toInt_divhValue {a h : Int} (h0 : 0 ≤ a) (h1 : 0 < h) (h2 : a * 2 ^ 32 < h * 2 ^ 63) :
    (divhValue a h).toInt = a * 2 ^ 32 / h := by
  have hlo : 0 ≤ a * 2 ^ 32 / h := Int.ediv_nonneg (by positivity) h1.le
  have hhi : a * 2 ^ 32 / h < 2 ^ 63 := Int.ediv_lt_of_lt_mul h1 (by rwa [mul_comm (2 ^ 63)])
  rw [divhValue, divRound, quotient_towardZero, shl, Int.tdiv_eq_ediv_of_nonneg (by positivity)]
  exact toInt_wrap64_of_fits (by omega) hhi

/-- A raw value that is the floor of `A * 2^32 / H`: its logical value is at most one ulp below the exact quotient of
the logical values (R166). -/
theorem logical_divh_bounds {v a h : Word} (hh : 0 < h.toInt) (hv : v.toInt = a.toInt * 2 ^ 32 / h.toInt) :
    logical v ≤ logical a / logicalHP h ∧ logical a / logicalHP h < logical v + 1 / 65536 := by
  have hpos : (0 : ℚ) < h.toInt := by exact_mod_cast hh
  have h1 : ((v.toInt * h.toInt : Int) : ℚ) ≤ (a.toInt * 2 ^ 32 : Int) := by
    rw [Int.cast_le, hv]
    exact Int.ediv_mul_le _ hh.ne'
  have h2 : ((a.toInt * 2 ^ 32 : Int) : ℚ) < ((v.toInt + 1) * h.toInt : Int) := by
    rw [Int.cast_lt, hv]
    exact Int.lt_ediv_add_one_mul_self _ hh
  push_cast at h1 h2
  have hquotient : logical a / logicalHP h = (a.toInt : ℚ) * 2 ^ 32 / h.toInt / 65536 := by
    rw [logical, logicalHP]
    field_simp
  rw [← le_div_iff₀ hpos] at h1
  rw [← div_lt_iff₀ hpos] at h2
  rw [hquotient, logical]
  constructor <;> linarith

/-- Catalog entries are selected by bits 2:0 (R163). -/
theorem catalogIndex_eq (imm12 : BitVec 12) :
    catalogIndex imm12 = ⟨imm12.toNat % 8, Nat.mod_lt _ (by norm_num)⟩ := by
  apply Fin.ext
  rw [catalogIndex, BitVec.val_toFin, BitVec.extractLsb'_toNat]
  rfl

/-- The catalog in decimal. -/
theorem catalog_eq (k : Fin 8) : catalog k =
    [ 13493037705, 26986075409, 11674931555, 6196328019, 14267572527, 74961321, 246083499208, 6746518852 ].getD
      k 0 := by
  revert k
  decide

theorem catalog_ne_zero (k : Fin 8) : catalog k ≠ 0 := by
  revert k
  decide

section ScaledLog
variable {s : State} {a : Reg}

/-- LN and LOG10 of a positive operand (R128, R129). -/
theorem writes_ln (rd : Reg) (ha : 0 < s.signedReg a) :
    Writes (.ln rd a) s rd (scaledLog (s.readReg a) log2eIndex) := writes_of_guard rfl ha.not_ge

theorem writes_log10 (rd : Reg) (ha : 0 < s.signedReg a) :
    Writes (.log10 rd a) s rd (scaledLog (s.readReg a) log2tenIndex) := writes_of_guard rfl ha.not_ge

/-- A scaled logarithm is what DIVH writes for LOG2 and the catalog entry (decision D24). -/
theorem writes_divh_scaledLog {t : State} {l d : Reg} (rd : Reg) {v : Word} (k : Fin 8)
    (hl : t.readReg l = Config.T.log2Core v) (hd : t.readReg d = catalog k) :
    Writes (.divh rd l d) t rd (scaledLog v k) := by
  refine writes_of_complete (exec_divh_of_ne rd l d (hd ▸ catalog_ne_zero k)) ?_
  rw [State.signedReg, State.signedReg, hl, hd]
  rfl

end ScaledLog

end Sys2Proof.Machine

open Sys2Proof Sys2Proof.Machine

/-- Settles O46: the catalog entry that bits 2:0 select. -/
theorem catalogLoads : Obligations.CatalogLoads := by
  intro s rd imm12
  have hwrites : Writes (.ldhc rd imm12) s rd (catalog (catalogIndex imm12)) := writes_of_complete rfl rfl
  refine ⟨?_, fun hzero => catalog_ne_zero _ (writes_injective hwrites hzero)⟩
  rw [catalog_eq, catalogIndex_eq] at hwrites
  exact hwrites

/-- Settles O47: by the two datapath equations. -/
theorem highPrecisionDatapath : Obligations.HighPrecisionDatapath := fun _ rd _ _ hh =>
  ⟨writes_of_complete (exec_divh_of_ne rd _ _ hh) (divhValue_eq_datapath _ _),
    writes_of_complete (exec_modh_of_ne rd _ _ hh) (modhValue_eq_datapath _ _)⟩

/-- Settles O48: MODH by the size of a remainder, DIVH as the floor of the quotient. -/
theorem highPrecisionBounds : Obligations.HighPrecisionBounds := by
  intro s rd a h hh
  have hh' : s.signedReg h ≠ 0 := mt (signedReg_eq_zero_iff s h).mp hh
  refine ⟨⟨_, writes_of_complete (exec_modh_of_ne rd a h hh) rfl, ?_⟩, fun h0 h1 h2 =>
    ⟨_, writes_of_complete (exec_divh_of_ne rd a h hh) rfl, ?_⟩⟩
  · obtain ⟨hv, hlt⟩ := toInt_modhValue (s.signedReg a) hh' (s.readReg h).le_toInt (s.readReg h).toInt_lt
    rw [hv]
    have hfloor := abs_ediv_mul_le ((shl (s.signedReg a) 16).tmod (s.signedReg h))
    omega
  · exact logical_divh_bounds h1 (toInt_divhValue h0 h1 h2)

/-- Settles O38: the divisors are catalog entries 3 and 4, so both commands are DIVH of LOG2. -/
theorem lnAndLog10DivideLog2 : Obligations.LnAndLog10DivideLog2 := by
  intro s rd a ha
  have hln := writes_ln rd ha
  have hlog10 := writes_log10 rd ha
  have he : (catalog log2eIndex).signExtend 96 = 0x171547653 := by decide
  have hten : (catalog log2tenIndex).signExtend 96 = 0x35269E12F := by decide
  refine ⟨?_, ?_, fun t l d hl => ⟨fun hd => ⟨_, hln, writes_divh_scaledLog rd log2eIndex hl hd⟩,
    fun hd => ⟨_, hlog10, writes_divh_scaledLog rd log2tenIndex hl hd⟩⟩⟩
  · rw [scaledLog, divhValue_eq_datapath, he] at hln
    exact hln
  · rw [scaledLog, divhValue_eq_datapath, hten] at hlog10
    exact hlog10

end

section
/-! The properties the record `T` is known to have, carried to the commands (42_transcendental.md). -/

namespace Sys2Proof.Machine

open Config (mulSquare)

/-- The square MUL writes is the one the listed properties speak of (R122, R134). -/
theorem mulValue_self (s : State) (r : Reg) :
    mulValue productWidth (s.signedReg r) (s.signedReg r) = mulSquare (s.readReg r) := rfl

/-- A command executed before others. -/
theorem execAll_cons_of_next {i : Instr} {is : List Instr} {s t : State} (h : exec i s = .next t) :
    execAll (i :: is) s = execAll is t := by
  rw [execAll, h]

/-- One command executed alone. -/
theorem execAll_singleton (i : Instr) (s : State) : execAll [i] s = exec i s := by
  obtain ⟨t, ht, -⟩ := exec_ends i s
  rw [execAll_cons_of_next ht, ht, execAll]

/-- Squaring two registers in place and adding the second to the first (R134). -/
theorem execAll_sum_of_squares {p q : Reg} (hpq : p ≠ q) (s : State) :
    ∃ t, execAll [.mul p p p, .mul q q q, .add p p q] s = .next t ∧
      t.readReg p = mulSquare (s.readReg p) + mulSquare (s.readReg q) := by
  refine ⟨_, rfl, ?_⟩
  simp only [State.readReg_complete_self, wrap64_add, wrap64_signedReg, mulValue_self,
    State.readReg_complete_ne _ _ _ _ hpq, State.readReg_complete_ne _ _ _ _ hpq.symm]

end Sys2Proof.Machine

open Sys2Proof Sys2Proof.Machine

/-- Settles O35: SQRTR tests nothing, and SQRT writes the same where its test passes. -/
theorem rawSqrtHasNoCheck : Obligations.RawSqrtHasNoCheck := fun _ _ _ =>
  ⟨writes_of_complete rfl rfl, fun ha => ⟨_, writes_of_guard rfl ha.not_gt, writes_of_complete rfl rfl⟩⟩

/-- Settles O36: the two properties as the record `T` has them. -/
theorem sqrtListedProperties : Obligations.SqrtListedProperties := by
  intro s rd a b
  refine ⟨fun hle =>
      ⟨_, _, writes_of_complete rfl rfl, writes_of_complete rfl rfl, Config.T_valid.sqrtMono _ _ hle⟩,
    fun ha => ⟨_, writes_of_guard rfl ha.not_gt, ?_⟩⟩
  have hsq := Config.T_valid.sqrtSq (s.readReg a) ha
  rw [← Int.ofNat_le, Int.natCast_natAbs] at hsq
  exact hsq

/-- Settles O43: the origin by the test, the quarter turns by the properties of `T`. -/
theorem atan2Points : Obligations.Atan2Points := by
  intro s rd y x
  have hcore : ¬(s.readReg y = 0 ∧ s.readReg x = 0) →
      Writes (.atan2 rd y x) s rd (Config.T.atan2Core (s.readReg y) (s.readReg x)) := fun hne =>
    writes_of_complete rfl (if_neg (by rwa [toInt_eq_zero_iff, toInt_eq_zero_iff]))
  refine ⟨fun hy hx => ?_, fun hy hx => ?_, fun hy hx => ?_, hcore⟩
  · exact writes_of_complete rfl (if_pos ⟨(toInt_eq_zero_iff _).mpr hy, (toInt_eq_zero_iff _).mpr hx⟩)
  · have h := hcore fun h => absurd (hy.symm.trans h.1) (by decide)
    rwa [hy, hx, Config.T_valid.atan2Quarter] at h
  · have h := hcore fun h => absurd (hy.symm.trans h.1) (by decide)
    rwa [hy, hx, Config.T_valid.atan2NegQuarter] at h

/-- Settles O41: the two registers hold sine and cosine, then their squares as MUL writes them. -/
theorem sinCosListedProperty : Obligations.SinCosListedProperty := by
  intro s p q a hpq hpa h0 h1
  have hunit := Config.T_valid.sinCosUnit (s.readReg a) h0 h1
  rw [execAll_cons_of_next rfl, execAll_cons_of_next rfl]
  obtain ⟨t, ht, hsum⟩ := execAll_sum_of_squares hpq
    ((s.complete p (Config.T.sin (s.readReg a))).complete q
      (Config.T.cos ((s.complete p (Config.T.sin (s.readReg a))).readReg a)))
  refine ⟨t, ht, ?_⟩
  rw [State.readReg_complete_self, State.readReg_complete_ne _ _ _ _ hpq, State.readReg_complete_self,
    State.readReg_complete_ne _ _ _ _ hpa.symm] at hsum
  rw [← Int.ofNat_le, Int.natCast_natAbs, ← hsum] at hunit
  exact hunit

end

section
/-! The algorithm sketches (log entry 21). -/

namespace Sys2Proof.Config

open Machine

variable {rom : EngineRom}

/-- A power of two has an empty window (R126). -/
theorem log2Fraction_two_pow (k : Nat) : rom.log2Fraction (2 ^ k) = 0 := by
  simp [EngineRom.log2Fraction, Nat.log2_two_pow]

/-- A positive 64-bit value as an unsigned number. -/
theorem toNat_bounds_of_pos {v : Word} (h : 0 < v.toInt) : 0 < v.toNat ∧ v.toNat < 2 ^ 63 := by
  rw [BitVec.toInt_eq_toNat_cond] at h
  split at h <;> omega

variable (hrom : rom.InBounds)
include hrom

/-- R122: a square root is a shifted entry. -/
theorem sqrtSketch_reads (v : Word) : ∃ e ∈ rom.sqrtTbl, ∃ k ≤ 31, rom.sqrtSketch v = rom.sqrtScale (shl e k) := by
  unfold EngineRom.sqrtSketch
  split
  next hnative =>
    exact ⟨_, tableEntry_mem (hrom.sqrtNative _ hnative), 0, by norm_num, by simp [shl]⟩
  next =>
    have hexponent := hrom.sqrtMantissa.exponent v.toNat v.isLt
    exact ⟨_, tableEntry_mem (hrom.sqrtMantissa.indexable v.toNat v.isLt), _, by omega, rfl⟩

/-- R126: a logarithm adds to an entry the terms of its neighbours. -/
theorem log2Sketch_reads {v : Word} (hv : 0 < v.toInt) : ∃ e ∈ rom.log2Tbl, ∃ es : List Int,
    (∀ d ∈ es, d ∈ rom.log2Tbl) ∧ ∃ low < 2 ^ rom.log2FractionBits,
      rom.log2Sketch v = wrap64 (((v.toNat.log2 : Int) - 16) * 65536 + e + rom.log2Terms es low) := by
  obtain ⟨hpos, hlt⟩ := toNat_bounds_of_pos hv
  refine ⟨_, tableEntry_mem (hrom.log2 _ hpos hlt),
    (rom.log2Neighbours (rom.log2Index v.toNat)).map (tableEntry rom.log2Tbl), ?_, rom.log2Low v.toNat,
    Nat.mod_lt _ (by positivity), ?_⟩
  · exact List.forall_mem_map.mpr fun k hk => tableEntry_mem (hrom.log2Neighbours _ hpos hlt k hk)
  · rw [add_assoc]
    rfl

/-- R130: EXP between its cut-offs multiplies by an entry. -/
theorem expSketch_reads {v : Word} (h1 : rom.expLo.toInt ≤ v.toInt) (h2 : v.toInt ≤ rom.expHi.toInt) :
    ∃ e ∈ rom.expTbl, rom.expSketch v =
      rom.expMultiply (rom.expPoly rom.expCoef (v.toInt - rom.expSplit v.toInt * 65536)) e := by
  have hfirst := hrom.expFirst _ h1 h2
  have hlast := hrom.exp _ h1 h2
  exact ⟨_, tableEntry_mem (by omega), rfl⟩

/-- R133: SIN and COS of an angle read one entry. -/
theorem sinCosSketch_reads (v : Word) : ∃ e ∈ rom.sinCosTbl, ∃ cosine sine : BitVec 32, e = cosine ++ sine ∧
    rom.cosSketch v = rom.cosOf cosine sine ∧
      (rom.sinSketch v = rom.sinOf cosine sine ∨ rom.sinSketch v = -rom.sinOf cosine sine) := by
  obtain ⟨hlo, hhi⟩ := angleRemainder_bounds v
  have hindex := hrom.sinCos _ hlo hhi
  refine ⟨rom.sinCosEntry v, ?_, rom.cosineHalf v, rom.sineHalf v, ?_, rfl, ?_⟩
  · rw [EngineRom.sinCosEntry, List.getD_eq_getElem _ _ hindex]
    exact List.getElem_mem hindex
  · exact (BitVec.extractLsb'_append_extractLsb'_eq_extractLsb' rfl).symm ▸ BitVec.extractLsb'_eq_self.symm
  · exact (ite_eq_or_eq _ _ _).symm

/-- R136: TAN reads an entry of the reduced magnitude. -/
theorem tanSketch_reads (v : Word) :
    ∃ e ∈ rom.tanTbl, rom.tanSketch v = if v.toInt < 0 then -wrap64 e else wrap64 e := by
  have hle : v.toInt.natAbs ≤ 2 ^ 63 := by
    have := v.le_toInt
    have := v.toInt_lt
    omega
  exact ⟨_, tableEntry_mem (hrom.tan _ (hrom.tanReduced _ hle)), rfl⟩

/-- R141: a magnitude reads an entry of the band it lies in. -/
theorem atanEntry_mem (a : Nat) : rom.atanEntry a ∈
    (if a ≤ rom.atanBand0 then rom.atanTbl0 else if a ≤ rom.atanBand1 then rom.atanTbl1 else rom.atanTbl2) := by
  unfold EngineRom.atanEntry
  split
  next h0 => exact tableEntry_mem (hrom.atan0 a h0)
  next h0 =>
    split
    next h1 => exact tableEntry_mem (hrom.atan1 a (not_le.mp h0) h1)
    next h1 =>
      have hlen := List.length_pos_of_ne_nil hrom.atan2
      exact tableEntry_mem (by omega)

end Sys2Proof.Config

open Sys2Proof Sys2Proof.Machine Sys2Proof.Config

/-- Settles O44: both sketches fold the sign, and a power of two leaves index and low part of the window at zero. -/
theorem sketchesFoldSignAndExponent : Obligations.SketchesFoldSignAndExponent := by
  intro rom v
  refine ⟨fun h0 hmin => ⟨foldSign_neg _ v h0 hmin, foldSign_neg _ v h0 hmin⟩, fun k hk hv => ?_⟩
  have hn : v.toNat = 2 ^ k := by
    rw [hv, BitVec.toNat_ofNat]
    exact Nat.mod_eq_of_lt (Nat.pow_lt_pow_right (by norm_num) (by omega))
  rw [EngineRom.log2Sketch, EngineRom.log2Interp, EngineRom.log2Index, EngineRom.log2Low, hn, log2Fraction_two_pow,
    Nat.log2_two_pow, Nat.zero_div, Nat.zero_mod, add_assoc]
  rfl

/-- Settles O45: one reading lemma per sketch. -/
theorem sketchesReadTheirTables : Obligations.SketchesReadTheirTables := fun _ hrom v =>
  ⟨sqrtSketch_reads hrom v, log2Sketch_reads hrom, expSketch_reads hrom, sinCosSketch_reads hrom v,
    tanSketch_reads hrom v, fun h1 h2 => ⟨⟨_, tableEntry_mem (hrom.asin _ h1 h2), rfl⟩,
      ⟨_, tableEntry_mem (hrom.acos _ h1 h2), rfl⟩⟩, ⟨_, atanEntry_mem hrom v.toInt.natAbs, rfl⟩⟩

end

section
/-! Integer conversion, the pseudo-instructions and the assembler text (44_convert.md, 30_encoding.md 7). -/

namespace Sys2Proof.Machine

/-- X2I is the 64-bit arithmetic shift (R180). -/
theorem wrap64_asr16 (v : Word) : wrap64 (asr v.toInt 16) = v.sshiftRight 16 := by
  rw [← toInt_sshiftRight_eq_asr, wrap64_toInt]

/-- The arithmetic shift of a raw value is the floor of the logical value (R180). -/
theorem floor_logical (v : Word) : ⌊logical v⌋ = asr v.toInt 16 := by
  have h := Rat.floor_intCast_div_natCast v.toInt 65536
  rw [logical]
  exact_mod_cast h

/-- The raw value of an integer of 48 bits (R78, R179). -/
theorem toInt_wrap64_mul_65536 {n : Int} (h1 : -2 ^ 47 ≤ n) (h2 : n < 2 ^ 47) :
    (wrap64 (n * 65536)).toInt = n * 65536 := by
  apply toInt_wrap64_of_fits <;> omega

/-- X2I undoes I2X on 48 bits. -/
theorem sshiftRight_shiftLeft16 {v : Word} (h1 : -2 ^ 47 ≤ v.toInt) (h2 : v.toInt < 2 ^ 47) :
    (v <<< 16).sshiftRight 16 = v := by
  apply BitVec.eq_of_toInt_eq
  rw [toInt_sshiftRight_eq_asr, ← wrap64_shl16, shl]
  have h := toInt_wrap64_mul_65536 h1 h2
  norm_num [asr] at *
  rw [h]
  omega

end Sys2Proof.Machine

open Sys2Proof Sys2Proof.Machine

/-- Settles O51: both shifts as vectors, and that the second undoes the first on 48 bits. -/
theorem integerConversion : Obligations.IntegerConversion := by
  intro s rd a
  refine ⟨writes_of_complete rfl (wrap64_shl16 _), ⟨_, writes_of_complete rfl (wrap64_asr16 _), rfl, ?_⟩,
    fun h1 h2 => ⟨_, rfl, writes_of_complete rfl ?_⟩⟩
  · rw [toInt_sshiftRight_eq_asr, floor_logical]
  · rw [State.signedReg, State.readReg_complete_self, State.signedReg, wrap64_shl16, wrap64_asr16]
    exact sshiftRight_shiftLeft16 h1 h2

/-- Settles O58: CLAMP's two commands choose by signed comparison, and the first leaves xHI; the others are one
command each. -/
theorem pseudoInstructions : Obligations.PseudoInstructions := by
  intro s rd rs lo hi
  refine ⟨fun hne => ⟨_, rfl, ?_, fun r hr => ?_, rfl⟩, execAll_singleton _ s, fun n h1 h2 => ⟨_, rfl, ?_⟩,
    _, rfl, ?_⟩
  · rw [State.readReg_complete_self]
    refine (toInt_ite_lt _ _).trans ?_
    rw [State.readReg_complete_self, State.readReg_complete_ne _ _ _ _ hne.symm]
    exact congrArg (min · (s.signedReg hi)) (toInt_ite_gt _ _)
  · rw [State.readReg_complete_ne _ _ _ _ hr, State.readReg_complete_ne _ _ _ _ hr]
  · rw [State.readReg_complete_self, logical, toInt_wrap64_mul_65536 h1 h2]
    push_cast
    ring
  · rw [State.readReg_complete_self, logical, show one.toInt = 65536 by decide]
    norm_num

/-- Settles O13: each text is printed by running the assembler. -/
theorem assemblerExamples : Obligations.AssemblerExamples := by
  unfold Obligations.AssemblerExamples
  decide

end

section
/-! Conversion from IEEE patterns (44_convert.md): the magnitude on the 2^-16 grid, and the true value truncated
to it. -/

namespace Sys2Proof.Machine

/-- The magnitude of a conversion before it is cut to 64 bits (R175, R176). -/
def ieeeGrid (fracBits align : Nat) (p : IeeeParts) : Nat :=
  let m := if p.exponent = 0 then p.fraction else 2 ^ fracBits + p.fraction
  if align ≤ p.exponent then m * 2 ^ (p.exponent - align) else m / 2 ^ (align - p.exponent)

/-- The conversion cuts the magnitude to 64 bits and negates it for a set sign. -/
theorem ieeeToFixed_eq (fracBits align : Nat) (p : IeeeParts) : ieeeToFixed fracBits align p =
    if p.sign then -wrap64 (ieeeGrid fracBits align p) else wrap64 (ieeeGrid fracBits align p) := by
  have hneg : wrap64 (-(wrap64 (ieeeGrid fracBits align p)).toNat) = -wrap64 (ieeeGrid fracBits align p) := by
    rw [wrap64_neg, wrap64_toNat]
  rw [← hneg]
  rfl

section Edges
variable {fracBits align : Nat} {p : IeeeParts}

/-- Subnormals and zeros lie below the grid (R178). -/
theorem ieeeGrid_of_exponent_zero (he : p.exponent = 0) (hf : p.fraction < 2 ^ fracBits) (ha : fracBits < align) :
    ieeeGrid fracBits align p = 0 := by
  rw [ieeeGrid, if_pos he, if_neg (by omega), he]
  exact Nat.div_eq_of_lt (hf.trans (Nat.pow_lt_pow_right (by norm_num) ha))

/-- From `align` on no bit is shifted out at the bottom (R176). -/
theorem ieeeGrid_of_align_le (he : align ≤ p.exponent) (ha : align ≠ 0) :
    ieeeGrid fracBits align p = (2 ^ fracBits + p.fraction) * 2 ^ (p.exponent - align) := by
  rw [ieeeGrid, if_pos he, if_neg (by omega)]

/-- 64 places further every bit is shifted out at the top (R178). -/
theorem wrap64_mul_two_pow_eq_zero (m : Nat) {k : Nat} (hk : 64 ≤ k) : wrap64 ((m * 2 ^ k : Nat) : Int) = 0 := by
  rw [wrap64, BitVec.ofInt_natCast]
  apply BitVec.eq_of_toNat_eq
  rw [BitVec.toNat_ofNat]
  exact Nat.mod_eq_zero_of_dvd ((Nat.pow_dvd_pow 2 hk).mul_left m)

/-- A conversion gives zero when the magnitude cut to 64 bits does. -/
theorem ieeeToFixed_eq_zero (h : wrap64 (ieeeGrid fracBits align p) = 0) : ieeeToFixed fracBits align p = 0 := by
  rw [ieeeToFixed_eq, h, BitVec.ofNat_eq_ofNat, BitVec.neg_zero, ite_self]

/-- R178 for any format: what gives zero, and what is kept where no bit is lost. -/
theorem ieeeToFixed_edges (ha : fracBits < align) (hf : p.fraction < 2 ^ fracBits) :
    (p.exponent = 0 ∨ align + 64 ≤ p.exponent → ieeeToFixed fracBits align p = 0) ∧
    (align ≤ p.exponent → ieeeToFixed fracBits align p =
      if p.sign then -BitVec.ofNat 64 ((2 ^ fracBits + p.fraction) * 2 ^ (p.exponent - align))
        else BitVec.ofNat 64 ((2 ^ fracBits + p.fraction) * 2 ^ (p.exponent - align))) := by
  refine ⟨fun h => ieeeToFixed_eq_zero ?_, fun h => ?_⟩
  · obtain h | h := h
    · rw [ieeeGrid_of_exponent_zero h hf ha]
      rfl
    · rw [ieeeGrid_of_align_le (by omega) (by omega)]
      exact wrap64_mul_two_pow_eq_zero _ (by omega)
  · rw [ieeeToFixed_eq, ieeeGrid_of_align_le h (by omega), wrap64, BitVec.ofInt_natCast]

end Edges

section Fields
variable (b : Word)

theorem binary64Parts_exponent : (binary64Parts b).exponent = b.toNat / 2 ^ 52 % 2048 := by
  rw [binary64Parts, BitVec.extractLsb'_toNat, Nat.shiftRight_eq_div_pow]

theorem binary64Parts_fraction : (binary64Parts b).fraction = b.toNat % 2 ^ 52 := by
  rw [binary64Parts, BitVec.extractLsb'_toNat 0, Nat.shiftRight_zero]

theorem binary32Parts_exponent : (binary32Parts b).exponent = b.toNat / 2 ^ 23 % 256 := by
  rw [binary32Parts, BitVec.extractLsb'_toNat, Nat.shiftRight_eq_div_pow]

theorem binary32Parts_fraction : (binary32Parts b).fraction = b.toNat % 2 ^ 23 := by
  rw [binary32Parts, BitVec.extractLsb'_toNat 0, Nat.shiftRight_zero]

theorem getLsbD_eq_div_mod (k : Nat) : b.getLsbD k = (b.toNat / 2 ^ k % 2 == 1) := by
  rw [BitVec.getLsbD, Nat.testBit_eq_decide_div_mod_eq]
  rfl

end Fields

/-- The fields of a pattern with the given field widths (R175). -/
def ieeeFields (exponentBits fractionBits pattern : Nat) : IeeeParts where
  sign := pattern / 2 ^ (exponentBits + fractionBits) % 2 == 1
  exponent := pattern / 2 ^ fractionBits % 2 ^ exponentBits
  fraction := pattern % 2 ^ fractionBits

theorem binary64Parts_eq (b : Word) : binary64Parts b = ieeeFields 11 52 b.toNat := by
  have hexponent := binary64Parts_exponent b
  have hfraction := binary64Parts_fraction b
  have hsign : (binary64Parts b).sign = _ := getLsbD_eq_div_mod b 63
  rw [ieeeFields, ← hsign, ← hfraction, show (2 : Nat) ^ 11 = 2048 by norm_num, ← hexponent]

/-- Bits 63:32 of the operand are ignored (R177). -/
theorem binary32Parts_eq (b : Word) : binary32Parts b = ieeeFields 8 23 (b.toNat % 2 ^ 32) := by
  rw [binary32Parts, ieeeFields, getLsbD_eq_div_mod, BitVec.extractLsb'_toNat, BitVec.extractLsb'_toNat,
    Nat.shiftRight_eq_div_pow, Nat.shiftRight_zero]
  norm_num
  omega

/-- The magnitude of the true value of a pattern, in units of 2^-16 (R175). -/
def ieeeScaled (fracBits align : Nat) (p : IeeeParts) : ℚ :=
  if p.exponent = 0 then p.fraction * 2 ^ (1 - (align : ℤ))
  else (2 ^ fracBits + p.fraction) * 2 ^ ((p.exponent : ℤ) - align)

/-- The true value of a pattern by its scaled magnitude, where `align` is the exponent of the grid (R175). -/
theorem ieeeValue_eq {exponentBits fracBits align : Nat} {bias : ℤ} (ha : (align : ℤ) = bias + fracBits - 16)
    (n : Nat) : ieeeValue exponentBits fracBits bias n * 65536 =
      (if (ieeeFields exponentBits fracBits n).sign then -1 else 1) *
        ieeeScaled fracBits align (ieeeFields exponentBits fracBits n) := by
  have hscale : ∀ e : ℤ, (2 : ℚ) ^ (e - bias - fracBits) * 65536 = 2 ^ (e - align) := fun e => by
    rw [show (65536 : ℚ) = 2 ^ (16 : ℤ) by norm_num, ← zpow_add₀ (by norm_num), ha]
    congr 1
    ring
  have hsign : (if n / 2 ^ (exponentBits + fracBits) % 2 = 1 then (-1 : ℚ) else 1) =
      if (ieeeFields exponentBits fracBits n).sign then -1 else 1 := by simp only [ieeeFields, beq_iff_eq]
  simp only [ieeeValue, hsign, mul_assoc]
  by_cases he : (ieeeFields exponentBits fracBits n).exponent = 0
  · rw [ieeeScaled, if_pos he, if_pos (show n / 2 ^ fracBits % 2 ^ exponentBits = 0 from he), mul_assoc, hscale]
    rfl
  · rw [ieeeScaled, if_neg he, if_neg (show ¬n / 2 ^ fracBits % 2 ^ exponentBits = 0 from he), mul_assoc, hscale]
    rfl

theorem ieeeScaled_nonneg (fracBits align : Nat) (p : IeeeParts) : 0 ≤ ieeeScaled fracBits align p := by
  unfold ieeeScaled
  split <;> positivity

/-- The floor of a number scaled by a power of two: a shift left, or a shift right that drops bits. -/
theorem floor_mul_two_zpow (m e a : Nat) : ⌊(m : ℚ) * 2 ^ ((e : ℤ) - a)⌋ =
    ((if a ≤ e then m * 2 ^ (e - a) else m / 2 ^ (a - e) : Nat) : ℤ) := by
  split
  next h =>
    obtain ⟨k, rfl⟩ := Nat.exists_eq_add_of_le h
    rw [show ((a + k : Nat) : ℤ) - a = k by push_cast; ring, zpow_natCast, Nat.add_sub_cancel_left]
    exact_mod_cast Int.floor_natCast (R := ℚ) (m * 2 ^ k)
  next h =>
    obtain ⟨k, rfl⟩ := Nat.exists_eq_add_of_le (not_le.mp h).le
    rw [show (e : ℤ) - (e + k : Nat) = -k by push_cast; ring, zpow_neg, zpow_natCast, Nat.add_sub_cancel_left,
      ← div_eq_mul_inv]
    exact_mod_cast Rat.floor_natCast_div_natCast m (2 ^ k)

/-- The magnitude on the grid is the floor of the true one. -/
theorem floor_ieeeScaled {fracBits align : Nat} {p : IeeeParts} (ha : fracBits + 1 < align)
    (hf : p.fraction < 2 ^ fracBits) : ⌊ieeeScaled fracBits align p⌋ = ieeeGrid fracBits align p := by
  unfold ieeeScaled
  split
  next he =>
    have hfloor := floor_mul_two_zpow p.fraction 1 align
    have hzero : p.fraction / 2 ^ (align - 1) = 0 :=
      Nat.div_eq_of_lt (hf.trans (Nat.pow_lt_pow_right (by norm_num) (by omega)))
    rw [if_neg (by omega), hzero] at hfloor
    rw [ieeeGrid_of_exponent_zero he hf (by omega)]
    exact_mod_cast hfloor
  next he =>
    have hfloor := floor_mul_two_zpow (2 ^ fracBits + p.fraction) p.exponent align
    rw [ieeeGrid, if_neg he]
    exact_mod_cast hfloor

/-- Cutting to 64 bits and negating for a set sign gives the truncated value, when that is below 2^63 in magnitude, or
is -2^63. -/
theorem truncatedRaw_of_floor {q x : ℚ} {n : Nat} {sign : Bool} (hx : 0 ≤ x) (hn : ⌊x⌋ = n)
    (hq : q * 65536 = (if sign then -1 else 1) * x) (hfits : |q| < 2 ^ 47 ∨ q = -2 ^ 47) :
    truncatedRaw q (if sign then -wrap64 n else wrap64 n) := by
  cases sign with
  | false =>
    replace hq : q * 65536 = x := by simpa using hq
    have hqpos : 0 ≤ q := by linarith
    have hlt : q < 2 ^ 47 := hfits.elim (fun h => (le_abs_self q).trans_lt h) (fun h => by linarith)
    have hn63 : (n : ℤ) < 2 ^ 63 := by
      rw [← hn, Int.floor_lt]
      push_cast
      linarith
    rw [truncatedRaw, if_neg hqpos.not_gt, hq, hn, if_neg (by decide)]
    exact toInt_wrap64_of_fits (by omega) hn63
  | true =>
    replace hq : -q * 65536 = x := by linarith [hq.trans (by simp : _ = -x)]
    have hle : -q ≤ 2 ^ 47 := hfits.elim (fun h => (neg_le_abs q).trans h.le) (fun h => by linarith)
    have hn63 : (n : ℤ) ≤ 2 ^ 63 := by
      rw [← hn, Int.floor_le_iff]
      push_cast
      linarith
    have hv : (wrap64 (-(n : ℤ))).toInt = -n := toInt_wrap64_of_fits (by omega) (by omega)
    rw [truncatedRaw, if_pos rfl, ← wrap64_neg, hv, hq, hn]
    split
    next => rfl
    next hneg =>
      have hq0 : q = 0 := by linarith
      have hx0 : x = 0 := by rw [← hq, hq0, neg_zero, zero_mul]
      rw [hx0, Int.floor_zero] at hn
      rw [← hn, hq0, zero_mul, Int.floor_zero, neg_zero]

/-- The truncation for any format. -/
theorem truncatedRaw_ieeeToFixed {exponentBits fracBits align : Nat} {bias : ℤ} {n : Nat}
    (ha : (align : ℤ) = bias + fracBits - 16) (hlt : fracBits + 1 < align)
    (hfits : |ieeeValue exponentBits fracBits bias n| < 2 ^ 47 ∨ ieeeValue exponentBits fracBits bias n = -2 ^ 47) :
    truncatedRaw (ieeeValue exponentBits fracBits bias n)
      (ieeeToFixed fracBits align (ieeeFields exponentBits fracBits n)) := by
  rw [ieeeToFixed_eq]
  exact truncatedRaw_of_floor (ieeeScaled_nonneg _ _ _) (floor_ieeeScaled hlt (Nat.mod_lt _ (by positivity)))
    (ieeeValue_eq ha n) hfits

end Sys2Proof.Machine

open Sys2Proof Sys2Proof.Machine

/-- Settles O49: the conversion truncates in any format, and F2X.S reads the low 32 bits. -/
theorem ieeeConversionTruncates : Obligations.IeeeConversionTruncates := by
  intro s rd a
  refine ⟨fun _ hfits => ⟨_, writes_of_complete rfl rfl, ?_⟩, fun _ hfits => ⟨_, writes_of_complete rfl rfl, ?_⟩⟩
  · rw [binary64Parts_eq]
    exact truncatedRaw_ieeeToFixed (by norm_num) (by norm_num) hfits
  · rw [binary32Parts_eq]
    exact truncatedRaw_ieeeToFixed (by norm_num) (by norm_num) hfits

/-- Settles O50: both formats by the one datapath. -/
theorem ieeeConversionEdges : Obligations.IeeeConversionEdges := by
  intro s rd a e f
  constructor
  · rintro rfl rfl
    have hfraction := binary64Parts_fraction (s.readReg a)
    obtain ⟨hzero, hexact⟩ := ieeeToFixed_edges (fracBits := 52) (align := 1059) (p := binary64Parts (s.readReg a))
      (by norm_num) (hfraction ▸ Nat.mod_lt _ (by norm_num))
    rw [binary64Parts_exponent, hfraction] at hexact
    rw [binary64Parts_exponent] at hzero
    exact ⟨fun h => writes_of_complete rfl (hzero h), fun h => writes_of_complete rfl (hexact h)⟩
  · rintro rfl rfl
    have hfraction := binary32Parts_fraction (s.readReg a)
    obtain ⟨hzero, hexact⟩ := ieeeToFixed_edges (fracBits := 23) (align := 134) (p := binary32Parts (s.readReg a))
      (by norm_num) (hfraction ▸ Nat.mod_lt _ (by norm_num))
    rw [binary32Parts_exponent, hfraction] at hexact
    rw [binary32Parts_exponent] at hzero
    exact ⟨fun h => writes_of_complete rfl (hzero h), fun h => writes_of_complete rfl (hexact h)⟩

end
